-- ==== Sys2Proof/Word.lean ====
section
/-! DEFINITION. The values that cross the interface and the four-word tuples of the engine. -/

namespace Sys2Proof

/-- One 64-bit transfer of a packet; a beat is 64 bits wide for both engines (20_memory.md R43). -/
abbrev Beat := BitVec 64

/-- The ordered tuple `s[0..3]` of four `n`-bit words (10_state.md R20): a state, a derived state,
or a table of four constants. -/
structure Words (n : Nat) where
  s0 : BitVec n
  s1 : BitVec n
  s2 : BitVec n
  s3 : BitVec n
  deriving DecidableEq, Repr

end Sys2Proof
end

