-- ==== Sys2Proof/Config.lean ====
section
/-! DEFINITION. What is fixed when an instance is built: its width, and the constants that go with
the width (00_scope.md R4, R5). The values stand in Machine/Constants.lean. -/

namespace Sys2Proof

/-- The one structural parameter `W` (00_scope.md R4): Engine32 or Engine64. -/
inductive Width
  | w32
  | w64
  deriving DecidableEq, Repr

/-- `W` as a number of bits. -/
def Width.bits : Width → Nat
  | .w32 => 32
  | .w64 => 64

/-- `NSEQ`: 32-bit words taken from a seed sequence, `2 × ceil(4W / 32)`: 16 or 8 (00_scope.md R5,
90_conflicts.md C1). -/
def Width.nseq (w : Width) : Nat := 2 * ((4 * w.bits + 31) / 32)

/-- Every other parameter of the block, for words of `n` bits (00_scope.md R5, 10_state.md R27).
Read-only: no command and no reset changes them. -/
structure Params (n : Nat) where
  /-- `A` (`s_shift`): left shift in the state update. -/
  shiftA : Nat
  /-- `B` (`r_shift`): rotation of `s[3]` in the state update. -/
  rotB : Nat
  /-- `R` (`o_shift`): rotation in the output scrambler. -/
  rotR : Nat
  /-- `GAMMA`: increment of the SeedExpander's accumulator, odd. -/
  gamma : BitVec n
  /-- `M1`, `M2`: multipliers of the SeedExpander, odd. -/
  m1 : BitVec n
  m2 : BitVec n
  /-- `X1`, `X2`, `X3`: right shifts of the SeedExpander. -/
  x1 : Nat
  x2 : Nat
  x3 : Nat
  /-- `DEFAULT_SEED`: used by reset and by SEEDD. -/
  defaultSeed : BitVec n
  /-- `JEXP`, `LEXP`: a jump advances by `2^JEXP` steps, a long jump by `2^LEXP`. -/
  jexp : Nat
  lexp : Nat
  /-- `JUMP[0..3]`, `LJUMP[0..3]` (44_jump.md R125). -/
  jump : Words n
  ljump : Words n
  deriving DecidableEq, Repr

/-- The width of the instance that `State.reset` is the reset state of.
DESIGN CHOICE (log 1): the spec describes both widths and an instance of either is a state of the
model; the one constant the interface asks for is Engine64's. -/
def Config.instanceWidth : Width := .w64

end Sys2Proof
end

