-- ==== Sys2Proof/Syntax.lean ====
section
/-! DEFINITION. The twelve commands (30_encoding.md R64), as data: a command with its payload beats. -/

namespace Sys2Proof

/-- The names of the twelve commands, in the order of their opcodes (30_encoding.md R64). -/
inductive Command
  | nop | seed | seedd | seedq | next | discard | jump | ljump | ser | deser | cmpeq | range
  deriving DecidableEq, Repr

/-- A command with the payload beats it came with, one constructor per row of the opcode table.
The payload has whatever length the host sent (30_encoding.md R60, D29): what a command does with a
payload that is not of its format is part of its rule. -/
inductive Instr
  | nop (payload : List Beat)
  | seed (payload : List Beat)
  | seedd (payload : List Beat)
  | seedq (payload : List Beat)
  | next (payload : List Beat)
  | discard (payload : List Beat)
  | jump (payload : List Beat)
  | ljump (payload : List Beat)
  | ser (payload : List Beat)
  | deser (payload : List Beat)
  | cmpeq (payload : List Beat)
  | range (payload : List Beat)
  deriving DecidableEq, Repr

/-- A command packet: a header beat, and the beats after it (30_encoding.md R60: non-empty). -/
structure CommandPacket where
  header : Beat
  payload : List Beat
  deriving DecidableEq, Repr

/-- The four payload formats (30_encoding.md R62). -/
inductive Format
  | z | s | q | v
  deriving DecidableEq, Repr

namespace Instr

/-- Which command it is. -/
def command : Instr → Command
  | .nop _ => .nop
  | .seed _ => .seed
  | .seedd _ => .seedd
  | .seedq _ => .seedq
  | .next _ => .next
  | .discard _ => .discard
  | .jump _ => .jump
  | .ljump _ => .ljump
  | .ser _ => .ser
  | .deser _ => .deser
  | .cmpeq _ => .cmpeq
  | .range _ => .range

/-- The payload beats it came with. -/
def payload : Instr → List Beat
  | .nop p => p
  | .seed p => p
  | .seedd p => p
  | .seedq p => p
  | .next p => p
  | .discard p => p
  | .jump p => p
  | .ljump p => p
  | .ser p => p
  | .deser p => p
  | .cmpeq p => p
  | .range p => p

/-- The command `c` with payload `p`. -/
def ofCommand (c : Command) (p : List Beat) : Instr :=
  match c with
  | .nop => .nop p
  | .seed => .seed p
  | .seedd => .seedd p
  | .seedq => .seedq p
  | .next => .next p
  | .discard => .discard p
  | .jump => .jump p
  | .ljump => .ljump p
  | .ser => .ser p
  | .deser => .deser p
  | .cmpeq => .cmpeq p
  | .range => .range p

end Instr

end Sys2Proof
end

