-- ==== Sys2Proof/WellFormed.lean ====
section
/-! DEFINITION. When a command's payload passes every check of its format, so that the command
answers OK (30_encoding.md R62, R63, R67 steps 3 and 4). An ill-formed command is no stop: it is
answered with an error (60_exceptions.md R170). -/

namespace Sys2Proof

/-- `need(op)`: the payload beats of a format (30_encoding.md R62), for width `w`. -/
def Format.need (w : Width) : Format → Nat
  | .z => 0
  | .s => 1
  | .q => 4
  | .v => w.nseq

/-- The format of each command (30_encoding.md R62). -/
def Command.format : Command → Format
  | .nop => .z
  | .seed => .s
  | .seedd => .z
  | .seedq => .v
  | .next => .z
  | .discard => .s
  | .jump => .z
  | .ljump => .z
  | .ser => .z
  | .deser => .q
  | .cmpeq => .q
  | .range => .z

/-- Step 3 of 30_encoding.md R67: the payload has the length of the format. -/
def Instr.lengthOk (w : Width) (i : Instr) : Bool :=
  i.payload.length == i.command.format.need w

/-- Step 4 of 30_encoding.md R67: DESER's beats are below `2^W`, SEEDQ's below `2^32`. -/
def Instr.rangeOk (w : Width) : Instr → Bool
  | .deser p => p.all fun b => decide (b.toNat < 2 ^ w.bits)
  | .seedq p => p.all fun b => decide (b.toNat < 2 ^ 32)
  | .nop _ | .seed _ | .seedd _ | .next _ | .discard _ | .jump _ | .ljump _ | .ser _ | .cmpeq _
  | .range _ => true

/-- The command passes every check on an engine of width `w`. -/
def Instr.wellFormed (w : Width) (i : Instr) : Bool := i.lengthOk w && i.rangeOk w

end Sys2Proof
end

