-- ==== Sys2Proof/Decode.lean ====
section
/-! DEFINITION. The opcode table, the decoder and the encoder (30_encoding.md R61, R64, R65). -/

namespace Sys2Proof

/-- One row of the opcode map (30_encoding.md R64). -/
structure OpcodeRow where
  opcode : BitVec 8
  command : Command
  /-- Response data beats on OK. -/
  dataBeats : Nat
  deriving DecidableEq, Repr

/-- The opcode map (30_encoding.md R64). -/
def opcodeTable : List OpcodeRow :=
  [ ⟨0x00, .nop, 0⟩, ⟨0x01, .seed, 0⟩, ⟨0x02, .seedd, 0⟩, ⟨0x03, .seedq, 0⟩,
    ⟨0x04, .next, 1⟩, ⟨0x05, .discard, 0⟩, ⟨0x06, .jump, 4⟩, ⟨0x07, .ljump, 4⟩,
    ⟨0x08, .ser, 4⟩, ⟨0x09, .deser, 0⟩, ⟨0x0A, .cmpeq, 1⟩, ⟨0x0B, .range, 2⟩ ]

/-- `h[7:0]`, the opcode field (30_encoding.md R61). -/
def headerOpcode (h : Beat) : BitVec 8 := h.extractLsb' 0 8

/-- `h[63:8]`, the reserved field (30_encoding.md R61). -/
def headerReserved (h : Beat) : BitVec 56 := h.extractLsb' 8 56

/-- The command an opcode is assigned to, if any. -/
def commandOfOpcode (op : BitVec 8) : Option Command :=
  (opcodeTable.find? fun r => r.opcode == op).map (·.command)

/-- Why a header is illegal (30_encoding.md R65). Both are answered with `IllegalCommand`. -/
inductive DecodeError
  /-- Some bit of `h[63:8]` is set (step 1 of 30_encoding.md R67). -/
  | reservedBits
  /-- `h[63:8] = 0` and `h[7:0] > 0x0B` (step 2 of 30_encoding.md R67). -/
  | unassignedOpcode
  deriving DecidableEq, Repr

/-- The decoder, total on every packet (30_encoding.md R65): steps 1 and 2 of R67, in that order.
The payload is not looked at (the packet's end comes from the `last` mark, R61). -/
def decode (p : CommandPacket) : Except DecodeError Instr :=
  if headerReserved p.header ≠ 0 then .error .reservedBits
  else
    match commandOfOpcode (headerOpcode p.header) with
    | none => .error .unassignedOpcode
    | some c => .ok (Instr.ofCommand c p.payload)

/-- The opcode of a command (30_encoding.md R64), written out once more for the encoder: `decode` of
`encode` says that the two agree. -/
def Command.opcode : Command → BitVec 8
  | .nop => 0x00
  | .seed => 0x01
  | .seedd => 0x02
  | .seedq => 0x03
  | .next => 0x04
  | .discard => 0x05
  | .jump => 0x06
  | .ljump => 0x07
  | .ser => 0x08
  | .deser => 0x09
  | .cmpeq => 0x0A
  | .range => 0x0B

/-- The packet of a command: header with the reserved field zero, then the payload. -/
def encode (i : Instr) : CommandPacket :=
  { header := i.command.opcode.setWidth 64, payload := i.payload }

/-- Beat `k` of an instruction whose bits are `w`, 64-bit beats, the first beat lowest. -/
def tableBeat (w k : Nat) : Beat := BitVec.ofNat 64 (w >>> (64 * k))

/-- How many payload beats the packet of a table word has: those the table's bits reach, and at least
those the command needs on the configured instance (log 8). -/
def tablePayloadLength (nbits w : Nat) : Nat :=
  max ((nbits + 63) / 64 - 1)
    (match commandOfOpcode (headerOpcode (tableBeat w 0)) with
      | some c => c.format.need Config.instanceWidth
      | none => 0)

/-- The packet of an instruction numbered as the opcode table numbers it: bit 0 of `w` is bit 0 of the
header beat, bits from 64 on are the payload beats, all bits at and above `nbits` are zero. -/
def packetOfTableWord (nbits w : Nat) : CommandPacket :=
  { header := tableBeat (w % 2 ^ nbits) 0
    payload := (List.range (tablePayloadLength nbits (w % 2 ^ nbits))).map fun k =>
      tableBeat (w % 2 ^ nbits) (k + 1) }

/-- The instruction the decoder reads from a table word. -/
def decodeTableWord (nbits w : Nat) : Option Instr :=
  match decode (packetOfTableWord nbits w) with
  | .ok i => some i
  | .error _ => none

end Sys2Proof
end

