-- ==== Sys2Proof/Machine/Arith.lean ====
section
/-! DEFINITION. The word primitives (00_scope.md R6 to R8, 20_memory.md R43) and the word-wise
operations on four-word tuples. Addition and multiplication modulo `2^W` are `+` and `*` of `BitVec`;
no primitive has a carry, overflow or other flag output (10_state.md R25). -/

namespace Sys2Proof.Machine

/-- `shl_W(a, k)`: bits shifted out at the top are lost (00_scope.md R7). -/
def shlW {n : Nat} (a : BitVec n) (k : Nat) : BitVec n := a <<< k

/-- `shr_W(a, k)`: logical, zeros enter at the top (00_scope.md R7). -/
def shrW {n : Nat} (a : BitVec n) (k : Nat) : BitVec n := a >>> k

/-- `rotl_W(x, k) = shl_W(x, k) | shr_W(x, W − k)` (00_scope.md R8). -/
def rotlW {n : Nat} (x : BitVec n) (k : Nat) : BitVec n := shlW x k ||| shrW x (n - k)

/-- `zext_64(v)` (00_scope.md R6, 20_memory.md R43). -/
def zext64 {n : Nat} (v : BitVec n) : Beat := v.setWidth 64

/-- `trunc_W(v) = v[W−1:0]` (00_scope.md R6). -/
def truncW (n : Nat) (v : Beat) : BitVec n := v.setWidth n

/-- The all-zero tuple (10_state.md R23). -/
def zeroWords (n : Nat) : Words n := ⟨0, 0, 0, 0⟩

/-- Exclusive or, word by word. -/
def xorWords {n : Nat} (a b : Words n) : Words n :=
  ⟨a.s0 ^^^ b.s0, a.s1 ^^^ b.s1, a.s2 ^^^ b.s2, a.s3 ^^^ b.s3⟩

/-- The serialization mux: a 4-to-1 selector of words (45_serialization.md R146, 20_memory.md R41). -/
def muxWord {n : Nat} (s : Words n) (i : Fin 4) : BitVec n :=
  match i with
  | 0 => s.s0
  | 1 => s.s1
  | 2 => s.s2
  | 3 => s.s3

/-- What the mux sends: its select input counts 0, 1, 2, 3, one zero-extended word per data beat
(45_serialization.md R146, 20_memory.md R42, R43). -/
def muxBeats {n : Nat} (s : Words n) : List Beat :=
  ([0, 1, 2, 3] : List (Fin 4)).map fun i => zext64 (muxWord s i)

end Sys2Proof.Machine
end

