-- ==== Sys2Proof/Machine/Pipeline.lean ====
section
/-! DEFINITION. The permutation/rotation pipeline: output scrambler and linear state update
(41_next.md R100, R101), and the state-advance jump logic over it (44_jump.md R126). -/

namespace Sys2Proof.Machine

/-- `out_W(s) = add_W(rotl_W(add_W(s[0], s[3]), R), s[0])` (41_next.md R100). -/
def outWord {n : Nat} (p : Params n) (s : Words n) : BitVec n := rotlW (s.s0 + s.s3) p.rotR + s.s0

/-- `step_W(s)` in the source's sequential form: each assignment sees the earlier ones (41_next.md R101). -/
def stepWords {n : Nat} (p : Params n) (s : Words n) : Words n :=
  let t := shlW s.s1 p.shiftA
  let s2 := s.s2 ^^^ s.s0
  let s3 := s.s3 ^^^ s.s1
  let s1 := s.s1 ^^^ s2
  let s0 := s.s0 ^^^ s3
  let s2 := s2 ^^^ t
  let s3 := rotlW s3 p.rotB
  ⟨s0, s1, s2, s3⟩

/-- `step_W^k(s)` (43_discard.md R120: "repeat n times"). -/
def stepTimes {n : Nat} (p : Params n) : Nat → Words n → Words n
  | 0, s => s
  | k + 1, s => stepTimes p k (stepWords p s)

/-- The bits of a word, bit 0 first. -/
def wordBits {n : Nat} (x : BitVec n) : List Bool := (List.range n).map fun b => x.getLsbD b

/-- The `4 × W` bits of a table, word 0 first and bit 0 first in a word (44_jump.md R126). -/
def tableBits {n : Nat} (T : Words n) : List Bool :=
  wordBits T.s0 ++ wordBits T.s1 ++ wordBits T.s2 ++ wordBits T.s3

/-- One update cycle for each bit: where the bit is 1, `w` is xored into `acc`; `w` is advanced by one
step every time (44_jump.md R126). -/
def advanceLoop {n : Nat} (p : Params n) : List Bool → Words n → Words n → Words n
  | [], acc, _ => acc
  | b :: bits, acc, w => advanceLoop p bits (if b then xorWords acc w else acc) (stepWords p w)

/-- `advance_W(s, T)` (44_jump.md R126). -/
def advanceWords {n : Nat} (p : Params n) (T s : Words n) : Words n :=
  advanceLoop p (tableBits T) (zeroWords n) s

end Sys2Proof.Machine
end

