-- ==== Sys2Proof/Machine/Constants.lean ====
section
/-! DEFINITION. The values of the parameters for the two widths (00_scope.md R5, 40_seed_expander.md R91,
44_jump.md R125). UNVERIFIED against the original repository, as the spec says of them itself (log 5). -/

namespace Sys2Proof.Machine

/-- Engine64's parameters. -/
def params64 : Params 64 :=
  { shiftA := 17
    rotB := 45
    rotR := 23
    gamma := 0x9E3779B97F4A7C15
    m1 := 0xBF58476D1CE4E5B9
    m2 := 0x94D049BB133111EB
    x1 := 30
    x2 := 27
    x3 := 31
    defaultSeed := 0
    jexp := 128
    lexp := 192
    jump := ⟨0x180EC6D33CFD0ABA, 0xD5A61266F0C9392C, 0xA9582618E03FC9AA, 0x39ABDC4529B1661C⟩
    ljump := ⟨0x76E15D3EFEFDCBBF, 0xC5004E441C522FB3, 0x77710069854EE241, 0x39109BB02ACBE635⟩ }

/-- Engine32's parameters. -/
def params32 : Params 32 :=
  { shiftA := 9
    rotB := 11
    rotR := 7
    gamma := 0x9E3779B9
    m1 := 0x85EBCA6B
    m2 := 0xC2B2AE35
    x1 := 16
    x2 := 13
    x3 := 16
    defaultSeed := 0
    jexp := 64
    lexp := 96
    jump := ⟨0x8764000B, 0xF542D2D3, 0x6FA035C3, 0x77F2DB5B⟩
    ljump := ⟨0xB523952E, 0x0B6F099F, 0xCCF5A0EF, 0x1C580662⟩ }

end Sys2Proof.Machine
end

