-- ==== Sys2Proof/Machine/SeedExpander.lean ====
section
/-! DEFINITION. The SeedExpander mixer (40_seed_expander.md R90, R92) and the packing of a seed
sequence (20_memory.md R44). -/

namespace Sys2Proof.Machine

/-- `mix_W(z)`: two rounds of xor-shift and multiply, then a closing xor-shift (40_seed_expander.md R90). -/
def mixWord {n : Nat} (p : Params n) (z : BitVec n) : BitVec n :=
  let z1 := (z ^^^ shrW z p.x1) * p.m1
  let z2 := (z1 ^^^ shrW z1 p.x2) * p.m2
  z2 ^^^ shrW z2 p.x3

/-- `expand_W(seed)`: the accumulator is incremented before each mix, and the mix works on a copy
(40_seed_expander.md R92). -/
def expandSeed {n : Nat} (p : Params n) (seed : BitVec n) : Words n :=
  let acc0 := seed + p.gamma
  let acc1 := acc0 + p.gamma
  let acc2 := acc1 + p.gamma
  let acc3 := acc2 + p.gamma
  ⟨mixWord p acc0, mixWord p acc1, mixWord p acc2, mixWord p acc3⟩

/-- `q[j] = payload[j][31:0]` (42_seeding.md R112). -/
def seqWord (payload : List Beat) (j : Nat) : BitVec 32 := (payload.getD j 0).setWidth 32

/-- `pack_64(q)[i]` is `q[2i+1]` above `q[2i]` (20_memory.md R44). -/
def pack64 (payload : List Beat) : Words 64 :=
  ⟨seqWord payload 1 ++ seqWord payload 0, seqWord payload 3 ++ seqWord payload 2,
    seqWord payload 5 ++ seqWord payload 4, seqWord payload 7 ++ seqWord payload 6⟩

/-- `pack_32(q)[i]` is `q[i]` (20_memory.md R44). -/
def pack32 (payload : List Beat) : Words 32 :=
  ⟨seqWord payload 0, seqWord payload 1, seqWord payload 2, seqWord payload 3⟩

end Sys2Proof.Machine
end

