-- ==== Sys2Proof/Machine/State.lean ====
section
/-! DEFINITION. The state of one engine instance with its two ports, its reset value, and the reasons a
step could stop. -/

namespace Sys2Proof.Machine

/-- The four state registers `s[0..3]` of one instance (10_state.md R20), with the width the instance was
built with (00_scope.md R4). -/
inductive Engine
  /-- Engine64. -/
  | engine64 (s : Words 64)
  /-- Engine32. -/
  | engine32 (s : Words 32)
  deriving DecidableEq, Repr

/-- What arrives at the instance from outside (30_encoding.md R60, 70_reset_and_hazards.md R190). -/
inductive PortEvent
  /-- One beat at the command port, with its `last` mark (30_encoding.md R60). -/
  | beat (value : Beat) (last : Bool)
  /-- The reset input is asserted, between packets or inside an unfinished one. -/
  | reset
  /-- The reset input is asserted while the command whose last beat stands just before is executing or
  being answered, `sent` beats of its response having left (log 7). -/
  | resetDuring (sent : Nat)
  deriving DecidableEq, Repr

/-- The machine: the engine's registers, and the model's own record of its two ports (log 2). -/
structure State where
  /-- The four registers: the whole architectural state (10_state.md R20). -/
  engine : Engine
  /-- What has arrived and is not yet consumed, oldest first. -/
  port : List PortEvent
  /-- The response packets that have left the response port, oldest first, each a list of beats. -/
  responses : List (List Beat)
  deriving DecidableEq, Repr

/-- Reasons for which the machine stops with a fault: there are none. Every command is total on every state
(60_exceptions.md R180, 70_reset_and_hazards.md R197) and an error is a status in a response, with no fault
bit (60_exceptions.md R177). Nobody raises a fault; log 4. -/
inductive Fault
  deriving DecidableEq, Repr

/-- Reasons for which the model gives an instruction no meaning. -/
inductive Refusal
  /-- Raised by an arm of `exec` whose instruction has no meaning yet; no arm is in that case. Safe. -/
  | notModelled (mnemonic : String)
  deriving DecidableEq, Repr

/-- The registers after reset, for either width: `s = expand_W(DEFAULT_SEED)` (10_state.md R29). -/
def Engine.construct : Width → Engine
  | .w64 => .engine64 (expandSeed params64 params64.defaultSeed)
  | .w32 => .engine32 (expandSeed params32 params32.defaultSeed)

/-- An instance of width `w` right after reset, with nothing sent and nothing answered (log 2). -/
def State.resetOf (w : Width) : State :=
  { engine := Engine.construct w, port := [], responses := [] }

/-- The machine right after reset (70_reset_and_hazards.md R190), for the configured width (log 1). -/
def State.reset : State := State.resetOf Config.instanceWidth

end Sys2Proof.Machine
end

