-- ==== Sys2Proof/Machine/Ops.lean ====
section
/-! DEFINITION. The shared operations: what the engine's registers do, answering a command, taking an
error, reset, and reading the command port. -/

namespace Sys2Proof.Machine

/-! ## The engine's registers -/

/-- `W` of the instance (00_scope.md R4). -/
def Engine.width : Engine → Width
  | .engine64 _ => .w64
  | .engine32 _ => .w32

/-- The registers after seeding from a scalar; the old registers have no influence (42_seeding.md R110). -/
def Engine.seeded (seed : Beat) : Engine → Engine
  | .engine64 _ => .engine64 (expandSeed params64 (truncW 64 seed))
  | .engine32 _ => .engine32 (expandSeed params32 (truncW 32 seed))

/-- The registers after seeding from the default seed (42_seeding.md R111). -/
def Engine.seededDefault : Engine → Engine
  | .engine64 _ => .engine64 (expandSeed params64 params64.defaultSeed)
  | .engine32 _ => .engine32 (expandSeed params32 params32.defaultSeed)

/-- The registers after loading `pack_W(q)` (20_memory.md R44). -/
def Engine.packed (payload : List Beat) : Engine → Engine
  | .engine64 _ => .engine64 (pack64 payload)
  | .engine32 _ => .engine32 (pack32 payload)

/-- The registers after loading four words (45_serialization.md R141: `payload[i][W-1:0]`). -/
def Engine.loaded (v : Words 64) : Engine → Engine
  | .engine64 _ => .engine64 ⟨truncW 64 v.s0, truncW 64 v.s1, truncW 64 v.s2, truncW 64 v.s3⟩
  | .engine32 _ => .engine32 ⟨truncW 32 v.s0, truncW 32 v.s1, truncW 32 v.s2, truncW 32 v.s3⟩

/-- `step_W^k` on the registers (43_discard.md R120). -/
def Engine.stepped (k : Nat) : Engine → Engine
  | .engine64 s => .engine64 (stepTimes params64 k s)
  | .engine32 s => .engine32 (stepTimes params32 k s)

/-- `zext_64(out_W(s))` (41_next.md R102). -/
def Engine.output : Engine → Beat
  | .engine64 s => zext64 (outWord params64 s)
  | .engine32 s => zext64 (outWord params32 s)

/-- The four words through the serialization mux (45_serialization.md R140, R146). -/
def Engine.words : Engine → List Beat
  | .engine64 s => muxBeats s
  | .engine32 s => muxBeats s

/-- The registers of the engine derived by JUMP (44_jump.md R127). -/
def Engine.jumped : Engine → Engine
  | .engine64 s => .engine64 (advanceWords params64 params64.jump s)
  | .engine32 s => .engine32 (advanceWords params32 params32.jump s)

/-- The registers of the engine derived by LJUMP (44_jump.md R128). -/
def Engine.longJumped : Engine → Engine
  | .engine64 s => .engine64 (advanceWords params64 params64.ljump s)
  | .engine32 s => .engine32 (advanceWords params32 params32.ljump s)

/-- `MIN = 0` (46_adapter.md R161). -/
def minOutput : Beat := 0

/-- `MAX = 2^W - 1` (46_adapter.md R161). -/
def Engine.maxOutput (e : Engine) : Beat := BitVec.ofNat 64 (2 ^ e.width.bits - 1)

/-- Reset of the registers: default construction, the width as built (70_reset_and_hazards.md R190). -/
def Engine.afterReset (e : Engine) : Engine := Engine.construct e.width

/-! ## Responses -/

/-- The five statuses (60_exceptions.md R170). -/
inductive Status
  | ok
  | formatError
  | domainError
  | illegalCommand
  | lengthError
  deriving DecidableEq, Repr

/-- The status codes (60_exceptions.md R170). -/
def statusCode : Status → BitVec 8
  | .ok => 0
  | .formatError => 1
  | .domainError => 2
  | .illegalCommand => 3
  | .lengthError => 4

/-- The response header: `r[7:0] = status`, `r[15:8] = echo`, the rest zero (30_encoding.md R66). -/
def responseHeader (st : Status) (echo : BitVec 8) : Beat :=
  (echo.setWidth 64 <<< 8) ||| (statusCode st).setWidth 64

/-- One response packet leaves the response port; nothing else changes (30_encoding.md R60, R66). -/
def State.emit (s : State) (packet : List Beat) : State :=
  { s with responses := s.responses ++ [packet] }

/-- `respond(OK, data)` to command `c` (00_scope.md R9, 30_encoding.md R66). -/
def State.respond (s : State) (c : Command) (data : List Beat) : State :=
  s.emit (responseHeader .ok c.opcode :: data)

/-- Taking an error: `raise st` to a command whose `h[7:0]` is `echo`. A response with that status, the
echoed opcode and no data beats; nothing is saved, no mode or register changes (60_exceptions.md R176,
00_scope.md R9). There is no handler and no return from it (60_exceptions.md R177). -/
def State.raise (s : State) (st : Status) (echo : BitVec 8) : State := s.emit [responseHeader st echo]

/-- All four registers are written together (20_memory.md R47). -/
def State.withEngine (s : State) (e : Engine) : State := { s with engine := e }

/-! ## The command port -/

/-- What the engine finds at its port. -/
inductive Fetch
  /-- No whole packet and no reset (30_encoding.md R60). -/
  | idle
  /-- A reset; beats of an unfinished packet before it are abandoned (70_reset_and_hazards.md R190). -/
  | reset (rest : List PortEvent)
  /-- A whole command packet. -/
  | packet (p : CommandPacket) (rest : List PortEvent)
  deriving DecidableEq, Repr

/-- Read the port: the beats up to the first one marked last are a packet (30_encoding.md R60), unless a
reset stands before it. A `resetDuring` that follows no whole packet is a reset like any other. -/
def fetch : List PortEvent → Fetch
  | [] => .idle
  | .reset :: rest => .reset rest
  | .resetDuring _ :: rest => .reset rest
  | .beat v true :: rest => .packet { header := v, payload := [] } rest
  | .beat v false :: rest =>
    match fetch rest with
    | .idle => .idle
    | .reset rest' => .reset rest'
    | .packet p rest' => .packet { header := v, payload := p.header :: p.payload } rest'

/-- Whether a reset lands during the command just fetched: how many response beats had left, and what
follows. -/
def interruption : List PortEvent → Option (Nat × List PortEvent)
  | .resetDuring sent :: rest => some (sent, rest)
  | _ => none

/-- The beats of a payload as they arrive, the last one marked. -/
def payloadEvents : Beat → List Beat → List PortEvent
  | v, [] => [.beat v true]
  | v, u :: rest => .beat v false :: payloadEvents u rest

/-- A command packet as it arrives at the port (30_encoding.md R60). -/
def packetEvents (p : CommandPacket) : List PortEvent := payloadEvents p.header p.payload

/-- What remains at the port after a fetch. -/
def State.withPort (s : State) (events : List PortEvent) : State := { s with port := events }

/-- Reset: the registers are default-constructed; nothing else is state (70_reset_and_hazards.md R190,
R191). Responses that have left the port have left it. -/
def State.applyReset (s : State) : State := s.withEngine s.engine.afterReset

/-- A reset that lands while a command runs or is answered: `before` is the state the command started in,
`after` the one it would have left. The command has no state effect other than the reset's own, and of its
response only the first `sent` beats leave (70_reset_and_hazards.md R190). -/
def State.cutShort (before after : State) (sent : Nat) (rest : List PortEvent) : State :=
  { engine := before.engine.afterReset
    port := rest
    responses := before.responses ++
      (((after.responses.drop before.responses.length).map (List.take sent)).filter (· ≠ [])) }

end Sys2Proof.Machine
end

