-- ==== Sys2Proof/Machine/Flags.lean ====
section
/-! DEFINITION. The hardware has no flags, condition codes or predicates (10_state.md R25); the one truth
value it computes is CMPEQ's, which is a data beat and no flag (46_adapter.md R160). -/

namespace Sys2Proof.Machine

/-- 1 for true, 0 for false (46_adapter.md R160, 30_encoding.md R66). -/
def truthBeat (b : Bool) : Beat := if b then 1 else 0

/-- The four beats equal the zero-extended registers, component-wise and in order; a beat `≥ 2^W` is
simply unequal (46_adapter.md R160). -/
def Engine.equalsWords (e : Engine) (v : Words 64) : Bool :=
  match e with
  | .engine64 s =>
    v.s0 == zext64 s.s0 && v.s1 == zext64 s.s1 && v.s2 == zext64 s.s2 && v.s3 == zext64 s.s3
  | .engine32 s =>
    v.s0 == zext64 s.s0 && v.s1 == zext64 s.s1 && v.s2 == zext64 s.s2 && v.s3 == zext64 s.s3

end Sys2Proof.Machine
end

