-- ==== Sys2Proof/Machine/Operands.lean ====
section
/-! DEFINITION. Operand assembly from payload beats, one function per payload format (30_encoding.md
R62, R63). Nothing is sign-extended, scaled or shifted. -/

namespace Sys2Proof.Machine

/-- Format `Z`: no payload beat. -/
def noOperand : List Beat → Bool
  | [] => true
  | _ :: _ => false

/-- Format `S`: exactly one beat, the scalar. -/
def scalarOperand : List Beat → Option Beat
  | [x] => some x
  | _ => none

/-- Format `Q`: exactly four beats, `payload[i]` for word `i`. -/
def quadOperand : List Beat → Option (Words 64)
  | [v0, v1, v2, v3] => some ⟨v0, v1, v2, v3⟩
  | _ => none

/-- `b < 2^W`, the range of a state word (45_serialization.md R141). For `W = 64` every beat passes. -/
def Engine.fitsWord (e : Engine) (b : Beat) : Bool := decide (b.toNat < 2 ^ e.width.bits)

/-- All four beats are in range; the check covers all of them before any register is written
(45_serialization.md R141, corner case 4). -/
def Engine.fitsWords (e : Engine) (v : Words 64) : Bool :=
  e.fitsWord v.s0 && e.fitsWord v.s1 && e.fitsWord v.s2 && e.fitsWord v.s3

/-- Format `V`: exactly `NSEQ` beats, each below `2^32`; the surplus half is checked like the rest
(42_seeding.md R112). -/
def Engine.sequenceOk (e : Engine) (payload : List Beat) : Bool :=
  payload.length == e.width.nseq && payload.all fun b => decide (b.toNat < 2 ^ 32)

end Sys2Proof.Machine
end

