-- ==== Sys2Proof/Machine/Adapter.lean ====
section
/-! DEFINITION. The adapter surface: CMPEQ, RANGE, NOP (46_adapter.md R160 to R162). -/

namespace Sys2Proof.Machine

/-- CMPEQ: one data beat, 1 for equal and 0 for not equal (46_adapter.md R160). -/
def execCmpeq (payload : List Beat) (s : State) : Host.Outcome State Fault Refusal :=
  match quadOperand payload with
  | some v => .next (s.respond .cmpeq [truthBeat (s.engine.equalsWords v)])
  | none => .next (s.raise .lengthError Command.cmpeq.opcode)

/-- RANGE: the two bounds of NEXT's output (46_adapter.md R161). -/
def execRange (payload : List Beat) (s : State) : Host.Outcome State Fault Refusal :=
  if noOperand payload then .next (s.respond .range [minOutput, s.engine.maxOutput])
  else .next (s.raise .lengthError Command.range.opcode)

/-- NOP does nothing and answers OK (46_adapter.md R162). -/
def execNop (payload : List Beat) (s : State) : Host.Outcome State Fault Refusal :=
  if noOperand payload then .next (s.respond .nop [])
  else .next (s.raise .lengthError Command.nop.opcode)

end Sys2Proof.Machine
end

