-- ==== Sys2Proof/Machine/Generate.lean ====
section
/-! DEFINITION. NEXT and DISCARD (41_next.md R102, 43_discard.md R120). -/

namespace Sys2Proof.Machine

/-- NEXT: the output is computed on the old state, then all four registers are replaced (41_next.md R102). -/
def execNext (payload : List Beat) (s : State) : Host.Outcome State Fault Refusal :=
  if noOperand payload then
    .next ((s.withEngine (s.engine.stepped 1)).respond .next [s.engine.output])
  else .next (s.raise .lengthError Command.next.opcode)

/-- DISCARD: `n` steps, `n` the whole 64-bit beat for both widths, no output (43_discard.md R120). -/
def execDiscard (payload : List Beat) (s : State) : Host.Outcome State Fault Refusal :=
  match scalarOperand payload with
  | some n => .next ((s.withEngine (s.engine.stepped n.toNat)).respond .discard [])
  | none => .next (s.raise .lengthError Command.discard.opcode)

end Sys2Proof.Machine
end

