-- ==== Sys2Proof/Machine/Jump.lean ====
section
/-! DEFINITION. JUMP and LJUMP (44_jump.md R127, R128). -/

namespace Sys2Proof.Machine

/-- JUMP: answers the four words of the derived state; `s` is not written (44_jump.md R127). -/
def execJump (payload : List Beat) (s : State) : Host.Outcome State Fault Refusal :=
  if noOperand payload then .next (s.respond .jump s.engine.jumped.words)
  else .next (s.raise .lengthError Command.jump.opcode)

/-- LJUMP: the same over the long-jump table (44_jump.md R128). -/
def execLjump (payload : List Beat) (s : State) : Host.Outcome State Fault Refusal :=
  if noOperand payload then .next (s.respond .ljump s.engine.longJumped.words)
  else .next (s.raise .lengthError Command.ljump.opcode)

end Sys2Proof.Machine
end

