-- ==== Sys2Proof/Machine/Seeding.lean ====
section
/-! DEFINITION. The seeding commands SEED, SEEDD, SEEDQ (42_seeding.md R110 to R112). -/

namespace Sys2Proof.Machine

/-- SEED: `s <- expand_W(payload[0][W-1:0])`; no error depends on the seed's value (42_seeding.md R110). -/
def execSeed (payload : List Beat) (s : State) : Host.Outcome State Fault Refusal :=
  match scalarOperand payload with
  | some seed => .next ((s.withEngine (s.engine.seeded seed)).respond .seed [])
  | none => .next (s.raise .lengthError Command.seed.opcode)

/-- SEEDD: `s <- expand_W(DEFAULT_SEED)` (42_seeding.md R111). -/
def execSeedd (payload : List Beat) (s : State) : Host.Outcome State Fault Refusal :=
  if noOperand payload then .next ((s.withEngine s.engine.seededDefault).respond .seedd [])
  else .next (s.raise .lengthError Command.seedd.opcode)

/-- SEEDQ: `s <- pack_W(q)`, no mixing; a wrong count or a beat that is no 32-bit word is `DomainError`
(42_seeding.md R112, 60_exceptions.md R172). -/
def execSeedq (payload : List Beat) (s : State) : Host.Outcome State Fault Refusal :=
  if s.engine.sequenceOk payload then
    .next ((s.withEngine (s.engine.packed payload)).respond .seedq [])
  else .next (s.raise .domainError Command.seedq.opcode)

end Sys2Proof.Machine
end

