-- ==== Sys2Proof/Machine/Serialize.lean ====
section
/-! DEFINITION. The word layer of serialization: SER and DESER (45_serialization.md R140, R141). -/

namespace Sys2Proof.Machine

/-- SER: answers the four words in state order and changes nothing (45_serialization.md R140). -/
def execSer (payload : List Beat) (s : State) : Host.Outcome State Fault Refusal :=
  if noOperand payload then .next (s.respond .ser s.engine.words)
  else .next (s.raise .lengthError Command.ser.opcode)

/-- DESER: four beats in range replace the state together, anything else is `FormatError`
(45_serialization.md R141, 60_exceptions.md R171). -/
def execDeser (payload : List Beat) (s : State) : Host.Outcome State Fault Refusal :=
  match quadOperand payload with
  | none => .next (s.raise .formatError Command.deser.opcode)
  | some v =>
    if s.engine.fitsWords v then .next ((s.withEngine (s.engine.loaded v)).respond .deser [])
    else .next (s.raise .formatError Command.deser.opcode)

end Sys2Proof.Machine
end

