-- ==== Sys2Proof/Machine/Dispatch.lean ====
section
/-! DEFINITION. Step 5 of 30_encoding.md R67: execute the command's rule. One arm per command. -/

namespace Sys2Proof.Machine

def exec (i : Instr) (s : State) : Host.Outcome State Fault Refusal :=
  match i with
  | .nop payload => Sys2Proof.Machine.execNop payload s
  | .seed payload => Sys2Proof.Machine.execSeed payload s
  | .seedd payload => Sys2Proof.Machine.execSeedd payload s
  | .seedq payload => Sys2Proof.Machine.execSeedq payload s
  | .next payload => Sys2Proof.Machine.execNext payload s
  | .discard payload => Sys2Proof.Machine.execDiscard payload s
  | .jump payload => Sys2Proof.Machine.execJump payload s
  | .ljump payload => Sys2Proof.Machine.execLjump payload s
  | .ser payload => Sys2Proof.Machine.execSer payload s
  | .deser payload => Sys2Proof.Machine.execDeser payload s
  | .cmpeq payload => Sys2Proof.Machine.execCmpeq payload s
  | .range payload => Sys2Proof.Machine.execRange payload s

end Sys2Proof.Machine
end

