-- ==== Sys2Proof/Machine/Step.lean ====
section
/-! DEFINITION. One step of the machine: what stands at the port is fetched, decoded and executed. -/

namespace Sys2Proof.Machine

/-- Decode and execute one whole command packet; an illegal header is answered `IllegalCommand` with the
echo of `h[7:0]`, its payload ignored (30_encoding.md R65, R66, R67). -/
def runPacket (p : CommandPacket) (s : State) : Host.Outcome State Fault Refusal :=
  match decode p with
  | .ok i => exec i s
  | .error _ => .next (s.raise .illegalCommand (headerOpcode p.header))

/-- One step. A whole packet at the port is executed, atomically and in the order sent (20_memory.md R47,
R50); a reset is taken (70_reset_and_hazards.md R190); with neither, the engine holds its registers
(30_encoding.md R60, 60_exceptions.md R182; log 6). -/
def step (s : State) : Host.Outcome State Fault Refusal :=
  match fetch s.port with
  | .idle => .next s
  | .reset rest => .next (s.withPort rest).applyReset
  | .packet p rest =>
    match interruption rest with
    | none => runPacket p (s.withPort rest)
    | some (sent, rest') =>
      match runPacket p (s.withPort rest') with
      | .next t => .next ((s.withPort rest').cutShort t sent rest')
      | .fault r => .fault r
      | .refused r => .refused r

/-- `s` with the packet of a table word standing first at the port, so that the next step runs exactly it
(a reset that would have cut it short is dropped from what follows). -/
def State.withFetchWord (s : State) (nbits w : Nat) : State :=
  s.withPort (packetEvents (packetOfTableWord nbits w) ++
    s.port.dropWhile fun e => (interruption [e]).isSome)

end Sys2Proof.Machine
end

