-- ==== Sys2Proof/Machine/Text.lean ====
section
/-! DEFINITION. The text layer of serialization: two pure functions at the boundary, with no state and no
command of their own (45_serialization.md R142 to R144). Text is a list of characters (log 10). -/

namespace Sys2Proof.Machine

/-- The ASCII digit of a value below ten (45_serialization.md R142). -/
def digitChar (d : Nat) : Char := Char.ofNat (48 + d)

/-- The shortest decimal numeral, most significant digit first, with at most `fuel + 1` digits. -/
def decimalDigits : Nat → Nat → List Char
  | 0, v => [digitChar (v % 10)]
  | fuel + 1, v => if v < 10 then [digitChar v] else decimalDigits fuel (v / 10) ++ [digitChar (v % 10)]

/-- A word as a decimal numeral; a 64-bit value has at most twenty digits (45_serialization.md R142). -/
def decimalText (v : Nat) : List Char := decimalDigits 19 v

/-- `text_of_W(v)`: the four numerals in state order, one space between, nothing around
(45_serialization.md R142). -/
def textOfWords {n : Nat} (v : Words n) : List Char :=
  decimalText v.s0.toNat ++ ' ' :: (decimalText v.s1.toNat ++ ' ' ::
    (decimalText v.s2.toNat ++ ' ' :: decimalText v.s3.toNat))

/-- The six whitespace characters: 0x20 and 0x09 to 0x0D (45_serialization.md R143). -/
def isSpaceChar (c : Char) : Bool := c.toNat == 0x20 || (0x09 ≤ c.toNat && c.toNat ≤ 0x0D)

/-- An ASCII digit, 0x30 to 0x39 (45_serialization.md R143). -/
def isDigitChar (c : Char) : Bool := 0x30 ≤ c.toNat && c.toNat ≤ 0x39

/-- The number a run of digits denotes in base 10; leading zeros do not change it (45_serialization.md
R143). -/
def decimalValue (token : List Char) : Nat := token.foldl (fun v c => 10 * v + (c.toNat - 48)) 0

/-- The value of a token valid for `n` bits, if it is: digits only, at least one, the value below `2^n`
(45_serialization.md R143). -/
def tokenValue (n : Nat) (token : List Char) : Option Nat :=
  if token ≠ [] ∧ token.all isDigitChar = true ∧ decimalValue token < 2 ^ n then some (decimalValue token)
  else none

/-- One turn of the reader: skip whitespace, take the maximal run of other characters, which must be valid
(45_serialization.md R144). Answers the value and the unread text. -/
def readToken (n : Nat) (text : List Char) : Except Status (BitVec n × List Char) :=
  let t := text.dropWhile isSpaceChar
  match tokenValue n (t.takeWhile fun c => !isSpaceChar c) with
  | some v => .ok (BitVec.ofNat n v, t.dropWhile fun c => !isSpaceChar c)
  | none => .error .formatError

/-- `parse_state_W(text)` with the unconsumed text: four tokens, what follows the fourth is not examined
(45_serialization.md R144). -/
def parseWords (n : Nat) (text : List Char) : Except Status (Words n × List Char) :=
  match readToken n text with
  | .error e => .error e
  | .ok (v0, t0) =>
    match readToken n t0 with
    | .error e => .error e
    | .ok (v1, t1) =>
      match readToken n t1 with
      | .error e => .error e
      | .ok (v2, t2) =>
        match readToken n t2 with
        | .error e => .error e
        | .ok (v3, t3) => .ok (⟨v0, v1, v2, v3⟩, t3)

/-- XC's `Serialize`, the text of a state (30_encoding.md R69). -/
def Engine.text : Engine → List Char
  | .engine64 s => textOfWords s
  | .engine32 s => textOfWords s

/-- The DESER payload of a text, for an engine of width `w`, or `FormatError` (30_encoding.md R69). -/
def parsePayload (w : Width) (text : List Char) : Except Status (List Beat) :=
  match parseWords w.bits text with
  | .error e => .error e
  | .ok (v, _) => .ok (muxBeats v)

end Sys2Proof.Machine
end

