-- ==== Sys2Proof/Machine/Assembler.lean ====
section
/-! DEFINITION. The assembler's lines (30_encoding.md R68): how a command and a response are written, and
how a command line is read. What R68 leaves open (spaces, letter case) is log 11. -/

namespace Sys2Proof.Machine

/-- The mnemonic of a command, in capitals (30_encoding.md R64, R68). -/
def mnemonicText : Command → List Char
  | .nop => "NOP".toList
  | .seed => "SEED".toList
  | .seedd => "SEEDD".toList
  | .seedq => "SEEDQ".toList
  | .next => "NEXT".toList
  | .discard => "DISCARD".toList
  | .jump => "JUMP".toList
  | .ljump => "LJUMP".toList
  | .ser => "SER".toList
  | .deser => "DESER".toList
  | .cmpeq => "CMPEQ".toList
  | .range => "RANGE".toList

/-- The name of a status (60_exceptions.md R170). -/
def statusText : Status → List Char
  | .ok => "OK".toList
  | .formatError => "FormatError".toList
  | .domainError => "DomainError".toList
  | .illegalCommand => "IllegalCommand".toList
  | .lengthError => "LengthError".toList

/-- Beats separated by a comma and a space, as decimal numerals. -/
def beatsText : List Beat → List Char
  | [] => []
  | [b] => decimalText b.toNat
  | b :: u :: rest => decimalText b.toNat ++ ',' :: ' ' :: beatsText (u :: rest)

/-- A command as one line: the mnemonic, then the payload beats separated by commas (30_encoding.md R68). -/
def lineOf (i : Instr) : List Char :=
  match i.payload with
  | [] => mnemonicText i.command
  | _ :: _ => mnemonicText i.command ++ ' ' :: beatsText i.payload

/-- A command line for a named instance, `A: NEXT` (30_encoding.md R68). -/
def lineFor (name : List Char) (i : Instr) : List Char := name ++ ':' :: ' ' :: lineOf i

/-- A response as one line, `-> STATUS [beat, beat, ...]` (30_encoding.md R68). -/
def responseLine (st : Status) (data : List Beat) : List Char :=
  "-> ".toList ++ statusText st ++ " [".toList ++ beatsText data ++ "]".toList

/-- The value of a hexadecimal digit. -/
def hexDigitValue (c : Char) : Option Nat :=
  if isDigitChar c then some (c.toNat - 48)
  else if 0x41 ≤ c.toNat ∧ c.toNat ≤ 0x46 then some (c.toNat - 55)
  else if 0x61 ≤ c.toNat ∧ c.toNat ≤ 0x66 then some (c.toNat - 87)
  else none

/-- The number a run of hexadecimal digits denotes. -/
def hexValue : List Char → Nat → Option Nat
  | [], v => some v
  | c :: rest, v =>
    match hexDigitValue c with
    | some d => hexValue rest (16 * v + d)
    | none => none

/-- A decimal or `0x` hexadecimal numeral of a beat (30_encoding.md R68). -/
def numeralValue (token : List Char) : Option Beat :=
  match token with
  | '0' :: 'x' :: c :: digits =>
    match hexValue (c :: digits) 0 with
    | some v => if v < 2 ^ 64 then some (BitVec.ofNat 64 v) else none
    | none => none
  | _ => (tokenValue 64 token).map (BitVec.ofNat 64)

/-- Text without the whitespace around it. -/
def trimSpaces (text : List Char) : List Char :=
  ((text.dropWhile isSpaceChar).reverse.dropWhile isSpaceChar).reverse

/-- The pieces of a text between the occurrences of a separator. -/
def splitAtChar (sep : Char) : List Char → List (List Char)
  | [] => [[]]
  | c :: rest =>
    match splitAtChar sep rest with
    | [] => [[]]
    | piece :: pieces => if c = sep then [] :: piece :: pieces else (c :: piece) :: pieces

/-- Every piece as a numeral, or nothing. -/
def numeralList : List (List Char) → Option (List Beat)
  | [] => some []
  | piece :: pieces =>
    match numeralValue (trimSpaces piece), numeralList pieces with
    | some b, some bs => some (b :: bs)
    | _, _ => none

/-- The payload of a line: nothing, or numerals separated by commas. -/
def payloadOfText (text : List Char) : Option (List Beat) :=
  match trimSpaces text with
  | [] => some []
  | c :: rest => numeralList (splitAtChar ',' (c :: rest))

/-- The command a mnemonic names. -/
def commandOfText (token : List Char) : Option Command :=
  (opcodeTable.find? fun r => mnemonicText r.command == token).map (·.command)

/-- A line that has been read: the instance it is for, if one is named, and the command, if there is one
(a line may be blank or hold a comment only: log 11). -/
structure AsmLine where
  target : Option (List Char)
  instr : Option Instr
  deriving DecidableEq, Repr

/-- A command without instance name and comment. -/
def parseCommand (text : List Char) : Option Instr :=
  let t := trimSpaces text
  match commandOfText (t.takeWhile fun c => !isSpaceChar c),
      payloadOfText (t.dropWhile fun c => !isSpaceChar c) with
  | some c, some p => some (Instr.ofCommand c p)
  | _, _ => none

/-- Read one line: the comment after `;` is dropped, a name before `:` is the instance (30_encoding.md R68).
DESIGN CHOICE (log 11): a line that is blank once its comment is dropped, be it empty, only whitespace or only a
comment, is read as a line without a command. -/
def parseLine (text : List Char) : Option AsmLine :=
  let line := trimSpaces (text.takeWhile fun c => c ≠ ';')
  if line = [] then some { target := none, instr := none }
  else
    match line.dropWhile fun c => c ≠ ':' with
    | [] =>
      match parseCommand line with
      | some i => some { target := none, instr := some i }
      | none => none
    | _ :: rest =>
      match parseCommand rest with
      | some i => some { target := some (trimSpaces (line.takeWhile fun c => c ≠ ':')), instr := some i }
      | none => none

end Sys2Proof.Machine
end

