-- ==== Sys2Proof/Machine/System.lean ====
section
/-! DEFINITION. The host's side: one transaction on one instance, several instances side by side
(60_exceptions.md R181, 10_state.md R22), and the pseudo-instructions (30_encoding.md R69). None of it adds
behaviour to the engine: every effect goes through `step`. -/

namespace Sys2Proof.Machine

/-- What the host reads out of a response header: status code and echo (30_encoding.md R66). -/
def responseStatus (r : List Beat) : BitVec 8 := (r.headD 0).extractLsb' 0 8

/-- The echoed opcode of a response (30_encoding.md R66). -/
def responseEcho (r : List Beat) : BitVec 8 := (r.headD 0).extractLsb' 8 8

/-- The data beats of a response (30_encoding.md R66). -/
def responseData (r : List Beat) : List Beat := r.drop 1

/-- The host sends one whole packet to an instance and waits for the response, with nothing else at the
port (70_reset_and_hazards.md R193). Answers the instance afterwards and the response. -/
def State.transact (s : State) (p : CommandPacket) : State × List Beat :=
  match step (s.withPort (packetEvents p)) with
  | .next t => (t, t.responses.getLastD [])
  | .fault _ => (s, [])
  | .refused _ => (s, [])

/-- The host sends one command. -/
def State.command (s : State) (i : Instr) : State × List Beat := s.transact (encode i)

/-- A system: any number of instances, of either width, that share nothing (60_exceptions.md R181). They
have no identifiers; the position in the list is the host's way to tell them apart (log 9). -/
abbrev System := List State

/-- The host sends a whole packet to the instance at position `k`; the others are not touched. -/
def sendTo (sys : System) (k : Nat) (p : CommandPacket) : System :=
  match sys[k]? with
  | some s => sys.set k (s.transact p).1
  | none => sys

/-- The response that packet gets. -/
def responseOf (sys : System) (k : Nat) (p : CommandPacket) : List Beat :=
  match sys[k]? with
  | some s => (s.transact p).2
  | none => []

/-- A run of the system: any interleaving of whole packets is a list of sends (20_memory.md R52). -/
def runSystem (sys : System) (sends : List (Nat × CommandPacket)) : System :=
  sends.foldl (fun y send => sendTo y send.1 send.2) sys

/-- The platform asserts the reset input of an instance now: the step on a reset at its port. What stands at the
port is no answered packet, so it is abandoned (70_reset_and_hazards.md R190; log 9). -/
def State.resetNow (s : State) : State :=
  match step (s.withPort [.reset]) with
  | .next t => t
  | .fault _ => s
  | .refused _ => s

/-- `CONSTRUCT`: reset of the instance at `k` (30_encoding.md R69, 42_seeding.md R113). -/
def construct (sys : System) (k : Nat) : System :=
  match sys[k]? with
  | some s => sys.set k s.resetNow
  | none => sys

/-- `CONSTRUCT` in its other expansion, `SEEDD` on a running instance, which is XC's `Seed()` with no seed too
(30_encoding.md R69, 42_seeding.md R113). -/
def constructRunning (sys : System) (k : Nat) : System := sendTo sys k (encode (.seedd []))

/-- Reset, then one command: the construction calls that take something to start from (42_seeding.md R113). -/
def constructThen (sys : System) (k : Nat) (i : Instr) : System := sendTo (construct sys k) k (encode i)

/-- `CONSTRUCT <seed>`: reset, then SEED (30_encoding.md R69). -/
def constructSeed (sys : System) (k : Nat) (seed : Beat) : System := constructThen sys k (.seed [seed])

/-- Construction from a seed sequence: reset, then SEEDQ (42_seeding.md R113). -/
def constructSequence (sys : System) (k : Nat) (q : List Beat) : System := constructThen sys k (.seedq q)

/-- Construction from deserialization, at the word layer: reset, then DESER (42_seeding.md R113). -/
def constructWords (sys : System) (k : Nat) (words : List Beat) : System := constructThen sys k (.deser words)

/-- `RESEED <seed>`: SEED (30_encoding.md R69). -/
def reseed (sys : System) (k : Nat) (seed : Beat) : System := sendTo sys k (encode (.seed [seed]))

/-- The four words a response carries, as beats. -/
def dataWords (r : List Beat) : Option (Words 64) := quadOperand (responseData r)

/-- The text of four data beats (45_serialization.md R142 on a SER's answer). -/
def textOfData (r : List Beat) : List Char :=
  match dataWords r with
  | some v => textOfWords v
  | none => []

/-- `SERIALIZE`: SER, then `text_of_W` on the four data beats (30_encoding.md R69). -/
def serialize (sys : System) (k : Nat) : System × List Char :=
  (sendTo sys k (encode (.ser [])), textOfData (responseOf sys k (encode (.ser []))))

/-- `DESERIALIZE "<text>"`: `parse_state_W`; where it fails no packet is sent, else DESER
(30_encoding.md R69). -/
def deserialize (sys : System) (k : Nat) (text : List Char) : Except Status System :=
  match sys[k]? with
  | none => .ok sys
  | some s =>
    match parsePayload s.engine.width text with
    | .error e => .error e
    | .ok payload => .ok (sendTo sys k (encode (.deser payload)))

/-- The host sends `i` to the instance at `a` and loads the data beats of its response into the instance at
`b` with DESER. -/
def forward (sys : System) (i : Instr) (a b : Nat) : System :=
  sendTo (sendTo sys a (encode i)) b (encode (.deser (responseData (responseOf sys a (encode i)))))

/-- `COPY A -> B` (30_encoding.md R69, 46_adapter.md R163). -/
def copyEngine (sys : System) (a b : Nat) : System := forward sys (.ser []) a b

/-- `SPAWN A -> B` (30_encoding.md R69). -/
def spawn (sys : System) (a b : Nat) : System := forward sys (.jump []) a b

/-- `LSPAWN A -> B` (30_encoding.md R69). -/
def longSpawn (sys : System) (a b : Nat) : System := forward sys (.ljump []) a b

/-- `EQ A, B`: SER on `b`, then CMPEQ of its words on `a`; the answer is the data beat (30_encoding.md R69). -/
def equalEngines (sys : System) (a b : Nat) : System × List Beat :=
  let words := responseData (responseOf sys b (encode (.ser [])))
  let sys' := sendTo sys b (encode (.ser []))
  (sendTo sys' a (encode (.cmpeq words)), responseData (responseOf sys' a (encode (.cmpeq words))))

/-- `MIN`: the first data beat of RANGE (30_encoding.md R69). -/
def minOf (s : State) : Beat := (responseData (s.command (.range [])).2).getD 0 0

/-- `MAX`: the second data beat of RANGE (30_encoding.md R69). -/
def maxOf (s : State) : Beat := (responseData (s.command (.range [])).2).getD 1 0

end Sys2Proof.Machine
end

