-- ==== Sys2Proof/Safety.lean ====
section
/-! DEFINITION. The terms in which claims about the machine are stated: the shape of responses, the all-zero
state, legal constants, runs of NEXT. -/

namespace Sys2Proof.Machine

/-- `s` with the registers `e` and one more response `packet`: the shape of every answer to a command. -/
def State.answered (s : State) (e : Engine) (packet : List Beat) : State :=
  { engine := e, port := s.port, responses := s.responses ++ [packet] }

/-- A whole response packet of an instance of width `w` (30_encoding.md R66): status in `r[7:0]`, one of the
five; echo in `r[15:8]`; `r[63:16]` zero; on OK as many data beats as the echoed command's row says, every one
below `2^W`; on any other status none. -/
def WholeResponse (w : Width) (r : List Beat) : Prop :=
  ∃ (st : Status) (echo : BitVec 8) (data : List Beat),
    r = BitVec.ofNat 64 ((statusCode st).toNat + 256 * echo.toNat) :: data ∧
    (st ≠ .ok → data = []) ∧
    (st = .ok → ∃ row ∈ opcodeTable, row.opcode = echo ∧ data.length = row.dataBeats) ∧
    ∀ b ∈ data, b.toNat < 2 ^ w.bits

/-- What can have left the response port: a nonempty first part of a whole response, all of it or less. Less than
all of it is how the model records a response that a reset cut off (70_reset_and_hazards.md R190; log 7, DEDUCED);
the definition itself asks for no reset. -/
def SentResponse (w : Width) (r : List Beat) : Prop :=
  r ≠ [] ∧ ∃ whole, WholeResponse w whole ∧ r <+: whole

/-- Everything that has left the response port is a nonempty first part of a whole response (log 7). -/
def State.ResponsesWellFormed (s : State) : Prop :=
  ∀ r ∈ s.responses, SentResponse s.engine.width r

/-- The all-zero state of the engine (10_state.md R23). -/
def Engine.isZero : Engine → Bool
  | .engine64 s => s == zeroWords 64
  | .engine32 s => s == zeroWords 32

/-- What a claim about any legal choice of the SeedExpander's constants may assume: GAMMA, M1, M2 odd, shifts
in `1 .. W−1` (93_implementation_defined.md U2). -/
def LegalMixer {n : Nat} (p : Params n) : Prop :=
  p.gamma.toNat % 2 = 1 ∧ p.m1.toNat % 2 = 1 ∧ p.m2.toNat % 2 = 1 ∧
    (0 < p.x1 ∧ p.x1 < n) ∧ (0 < p.x2 ∧ p.x2 < n) ∧ (0 < p.x3 ∧ p.x3 < n)

/-- NEXT, `k` times in a row. -/
def runNexts : Nat → State → Host.Outcome State Fault Refusal
  | 0, s => .next s
  | k + 1, s =>
    match exec (.next []) s with
    | .next t => runNexts k t
    | .fault r => .fault r
    | .refused r => .refused r

/-- Tokens, each with the whitespace before it, as one text. -/
def textOfTokens : List (List Char × List Char) → List Char
  | [] => []
  | (space, token) :: rest => space ++ token ++ textOfTokens rest

/-- Whitespace before every token, though possibly none before the first, and no token empty
(45_serialization.md R143). -/
def SeparatedTokens (tokens : List (List Char × List Char)) : Prop :=
  (∀ x ∈ tokens, x.1.all isSpaceChar = true ∧ x.2 ≠ [] ∧ x.2.any isSpaceChar = false) ∧
    ∀ x ∈ tokens.tail, x.1 ≠ []

end Sys2Proof.Machine
end

