-- ==== Sys2Proof/Certificates/Slice0/Obligations.lean ====
section
/-! DEFINITION. The statements for the provers: what the commands and the machine do, from the numbered rules
of spec/. `s.answered e r` is `s` with registers `e` and the response packet `r` added; its port is `s`'s. -/

open Sys2Proof Sys2Proof.Machine

/-! ## Reset -/

/-- R29: the four registers after reset, for both widths. -/
def Obligations.ResetRegistersHoldDefaultSeedState : Prop :=
  (State.resetOf .w64).engine = .engine64
      ⟨0xE220A8397B1DCDAF, 0x6E789E6AA1B965F4, 0x06C45D188009454F, 0xF88BB8A8724C81EC⟩ ∧
    (State.resetOf .w32).engine = .engine32 ⟨0x92CA2F0E, 0x3CD6E3F3, 0x1B147DCC, 0x4C081DBF⟩ ∧
    (∀ e : Engine, e.afterReset = (State.resetOf e.width).engine)

/-- R190: a reset loads the default-seeded registers, drops the beats of an unfinished packet and answers
nothing. The event at the port is the model's form of the reset input (log 7). -/
def Obligations.ResetAbandonsUnfinishedPacket : Prop :=
  ∀ (s : State) (unfinished : List Beat) (rest : List PortEvent),
    s.port = unfinished.map (fun v => PortEvent.beat v false) ++ PortEvent.reset :: rest →
    step s = .next { engine := (State.resetOf s.engine.width).engine, port := rest, responses := s.responses }

/-- R190: a reset during a command leaves the reset state and only the beats of the response that had left
(none: no response). How it stands at the port is log 7. -/
def Obligations.ResetCutsCommandAndResponse : Prop :=
  ∀ (s : State) (p : CommandPacket) (sent : Nat) (rest : List PortEvent),
    ∃ (e : Engine) (r : List Beat),
      step (s.withPort (packetEvents p)) = .next ((s.withPort []).answered e r) ∧
      step (s.withPort (packetEvents p ++ PortEvent.resetDuring sent :: rest)) =
        .next { engine := (State.resetOf s.engine.width).engine
                port := rest
                responses := s.responses ++ (if sent = 0 then [] else [r.take sent]) }

/-! ## The step -/

/-- A whole packet at the port that decodes to `i` is taken from the port and `i` is executed. -/
def Obligations.StepExecutesDecodedCommand : Prop :=
  ∀ (s : State) (p : CommandPacket) (i : Instr) (rest : List PortEvent),
    s.port = packetEvents p ++ rest → interruption rest = none → decode p = .ok i →
    step s = exec i (s.withPort rest)

/-- The packet of a table word runs as the very next step. -/
def Obligations.TableWordRunsNext : Prop :=
  ∀ (s : State) (nbits w : Nat) (i : Instr), decodeTableWord nbits w = some i →
    ∃ rest, step (s.withFetchWord nbits w) = exec i (s.withPort rest)

/-- R60: an unfinished packet causes no state change and no response. That a step then answers the same state
is the model's choice (log 6). -/
def Obligations.UnfinishedPacketChangesNothing : Prop :=
  ∀ (s : State) (beats : List Beat), s.port = beats.map (fun v => PortEvent.beat v false) →
    step s = .next s

/-- R180, R197: no state and no input stops the machine. -/
def Obligations.EveryStepAnswers : Prop := ∀ s : State, ∃ t, step s = .next t

/-- R60, R66: a whole command packet is answered with exactly one response, which echoes `h[7:0]`. -/
def Obligations.OneResponsePerCommandPacket : Prop :=
  ∀ (s : State) (p : CommandPacket) (rest : List PortEvent),
    s.port = packetEvents p ++ rest → interruption rest = none →
    ∃ (e : Engine) (header : Beat) (data : List Beat),
      step s = .next ((s.withPort rest).answered e (header :: data)) ∧
      header.extractLsb' 8 8 = p.header.extractLsb' 0 8

/-! ## Encoding and errors -/

/-- R64: a packet selects a command if and only if its header is the command's opcode. -/
def Obligations.DecodeEncodeAgree : Prop := ∀ (p : CommandPacket) (i : Instr), decode p = .ok i ↔ encode i = p

/-- R64, R65: some headers, as numbers. -/
def Obligations.WrittenHeadersDecode : Prop :=
  decode ⟨0x0000000000000000, []⟩ = .ok (.nop []) ∧
  decode ⟨0x0000000000000001, [12345]⟩ = .ok (.seed [12345]) ∧
  decode ⟨0x0000000000000004, []⟩ = .ok (.next []) ∧
  decode ⟨0x0000000000000005, [7]⟩ = .ok (.discard [7]) ∧
  decode ⟨0x0000000000000007, []⟩ = .ok (.ljump []) ∧
  decode ⟨0x0000000000000009, [1, 2, 3, 4]⟩ = .ok (.deser [1, 2, 3, 4]) ∧
  decode ⟨0x000000000000000B, []⟩ = .ok (.range []) ∧
  decode ⟨0x000000000000000C, []⟩ = .error .unassignedOpcode ∧
  decode ⟨0x0000000100000004, []⟩ = .error .reservedBits

/-- R173: every header that is not one of the twelve opcodes, whatever its payload, is answered
`IllegalCommand`, with the echo of `h[7:0]`, and the registers stay. -/
def Obligations.UnassignedHeaderIsIllegalCommand : Prop :=
  ∀ (s : State) (p : CommandPacket) (rest : List PortEvent),
    s.port = packetEvents p ++ rest → interruption rest = none → 0x0B < p.header.toNat →
    step s = .next ((s.withPort rest).answered s.engine
      [BitVec.ofNat 64 (3 + 256 * (p.header.toNat % 256))])

/-- R174: a payload of the wrong length is answered `LengthError` by the ten commands that report it, and
nothing else happens; DESER answers `FormatError` and SEEDQ `DomainError` instead. -/
def Obligations.WrongPayloadLengthIsLengthError : Prop :=
  ∀ (s : State) (payload : List Beat),
    (payload.length ≠ 0 →
      exec (.nop payload) s = .next (s.answered s.engine [0x0004]) ∧
      exec (.seedd payload) s = .next (s.answered s.engine [0x0204]) ∧
      exec (.next payload) s = .next (s.answered s.engine [0x0404]) ∧
      exec (.jump payload) s = .next (s.answered s.engine [0x0604]) ∧
      exec (.ljump payload) s = .next (s.answered s.engine [0x0704]) ∧
      exec (.ser payload) s = .next (s.answered s.engine [0x0804]) ∧
      exec (.range payload) s = .next (s.answered s.engine [0x0B04])) ∧
    (payload.length ≠ 1 →
      exec (.seed payload) s = .next (s.answered s.engine [0x0104]) ∧
      exec (.discard payload) s = .next (s.answered s.engine [0x0504])) ∧
    (payload.length ≠ 4 →
      exec (.cmpeq payload) s = .next (s.answered s.engine [0x0A04]) ∧
      exec (.deser payload) s = .next (s.answered s.engine [0x0901])) ∧
    (payload.length ≠ s.engine.width.nseq →
      exec (.seedq payload) s = .next (s.answered s.engine [0x0302]))

/-- R67, R175, R176: a command that fails a check is answered with the one status of its kind, leaving the
registers as they were; a command that passes is answered OK. -/
def Obligations.ChecksDecideTheStatus : Prop :=
  ∀ (i : Instr) (s : State),
    (i.wellFormed s.engine.width = false →
      exec i s = .next (s.answered s.engine
        [BitVec.ofNat 64
          ((if i.command = .deser then 1 else if i.command = .seedq then 2 else 4)
            + 256 * i.command.opcode.toNat)])) ∧
    (i.wellFormed s.engine.width = true →
      ∃ (e : Engine) (data : List Beat),
        exec i s = .next (s.answered e (BitVec.ofNat 64 (256 * i.command.opcode.toNat) :: data)))

/-! ## Word primitives -/

/-- R8: the rotation moves bit `i` to bit `(i + k) mod W`; its two halves have no set bit in common, so that
`|`, `^` and addition agree; a rotation by 0 is the identity. -/
def Obligations.RotationMovesBits : Prop :=
  ∀ (n k : Nat) (x : BitVec n),
    (0 < k → k < n →
      (∀ i, i < n → (rotlW x k).getLsbD ((i + k) % n) = x.getLsbD i) ∧
      shlW x k &&& shrW x (n - k) = 0 ∧
      rotlW x k = shlW x k ||| shrW x (n - k) ∧
      rotlW x k = shlW x k ^^^ shrW x (n - k) ∧
      rotlW x k = shlW x k + shrW x (n - k)) ∧
    rotlW x 0 = x

/-! ## NEXT and DISCARD -/

/-- R100 to R102, Engine64 and Engine32: the output of the old state, and the closed form of the update; with
a payload `LengthError`. -/
def Obligations.NextAnswersOutputAndSteps : Prop :=
  (∀ (s : State) (o0 o1 o2 o3 : BitVec 64), s.engine = .engine64 ⟨o0, o1, o2, o3⟩ →
    exec (.next []) s = .next (s.answered
      (.engine64 ⟨o0 ^^^ o1 ^^^ o3, o0 ^^^ o1 ^^^ o2, o0 ^^^ o2 ^^^ (o1 <<< 17),
        (o1 ^^^ o3).rotateLeft 45⟩)
      [0x0400, (o0 + o3).rotateLeft 23 + o0])) ∧
  (∀ (s : State) (o0 o1 o2 o3 : BitVec 32), s.engine = .engine32 ⟨o0, o1, o2, o3⟩ →
    exec (.next []) s = .next (s.answered
      (.engine32 ⟨o0 ^^^ o1 ^^^ o3, o0 ^^^ o1 ^^^ o2, o0 ^^^ o2 ^^^ (o1 <<< 9),
        (o1 ^^^ o3).rotateLeft 11⟩)
      [0x0400, ((o0 + o3).rotateLeft 7 + o0).setWidth 64])) ∧
  ∀ (s : State) (payload : List Beat), payload.length ≠ 0 →
    exec (.next payload) s = .next (s.answered s.engine [0x0404])

/-- R120: the count is the whole 64-bit beat, for both widths; no data; any other payload is `LengthError`. -/
def Obligations.DiscardStepsByItsCount : Prop :=
  (∀ (s : State) (n : Beat),
    (∀ w : Words 64, s.engine = .engine64 w →
      exec (.discard [n]) s =
        .next (s.answered (.engine64 ((stepWords params64)^[n.toNat] w)) [0x0500])) ∧
    (∀ w : Words 32, s.engine = .engine32 w →
      exec (.discard [n]) s =
        .next (s.answered (.engine32 ((stepWords params32)^[n.toNat] w)) [0x0500]))) ∧
  ∀ (s : State) (payload : List Beat), payload.length ≠ 1 →
    exec (.discard payload) s = .next (s.answered s.engine [0x0504])

/-- R121: DISCARD `n` then NEXT gives the output and the state of `n + 1` NEXTs. -/
def Obligations.DiscardThenNextIsNextRepeated : Prop :=
  ∀ (s : State) (n : Beat), ∃ t t' v,
    exec (.discard [n]) s = .next t ∧ exec (.next []) t = .next t' ∧
    runNexts (n.toNat + 1) s = .next v ∧
    t'.engine = v.engine ∧ t'.responses.getLast? = v.responses.getLast?

/-- R103 (a), (b): the update is linear over xor and fixes the zero state, whose output is 0. -/
def Obligations.StepIsLinear : Prop :=
  ∀ (n : Nat) (p : Params n),
    (∀ a b : Words n, stepWords p (xorWords a b) = xorWords (stepWords p a) (stepWords p b)) ∧
    stepWords p (zeroWords n) = zeroWords n ∧ outWord p (zeroWords n) = 0

/-- R103 (c): no two states have the same successor, and every state has a predecessor. -/
def Obligations.StepIsBijective : Prop :=
  Function.Bijective (stepWords params64) ∧ Function.Bijective (stepWords params32)

/-- R161, XC §8 property 6: every NEXT output lies in `[min, max]`, and both bounds are attained. -/
def Obligations.OutputsLieInTheRange : Prop :=
  (∀ e : Engine, minOutput ≤ e.output ∧ e.output ≤ e.maxOutput) ∧
  (∀ w : Width, ∃ e : Engine, e.width = w ∧ e.output = minOutput) ∧
  (∀ w : Width, ∃ e : Engine, e.width = w ∧ e.output = e.maxOutput)

/-! ## Seeding -/

/-- R90 to R92, R110, R63: the four words are the mixes of `seed + (i+1) × GAMMA`, for Engine32 of the beat's
lower half; any other payload is `LengthError`. -/
def Obligations.SeedExpandsIntoEngine : Prop :=
  (∀ (s : State) (w : Words 64) (x : Beat), s.engine = .engine64 w →
    let mix : BitVec 64 → BitVec 64 := fun z =>
      let z1 := (z ^^^ (z >>> 30)) * 0xBF58476D1CE4E5B9
      let z2 := (z1 ^^^ (z1 >>> 27)) * 0x94D049BB133111EB
      z2 ^^^ (z2 >>> 31)
    exec (.seed [x]) s = .next (s.answered
      (.engine64 ⟨mix (x + 1 * 0x9E3779B97F4A7C15), mix (x + 2 * 0x9E3779B97F4A7C15),
        mix (x + 3 * 0x9E3779B97F4A7C15), mix (x + 4 * 0x9E3779B97F4A7C15)⟩)
      [0x0100])) ∧
  (∀ (s : State) (w : Words 32) (x : Beat), s.engine = .engine32 w →
    let mix : BitVec 32 → BitVec 32 := fun z =>
      let z1 := (z ^^^ (z >>> 16)) * 0x85EBCA6B
      let z2 := (z1 ^^^ (z1 >>> 13)) * 0xC2B2AE35
      z2 ^^^ (z2 >>> 16)
    let seed : BitVec 32 := BitVec.ofNat 32 x.toNat
    exec (.seed [x]) s = .next (s.answered
      (.engine32 ⟨mix (seed + 1 * 0x9E3779B9), mix (seed + 2 * 0x9E3779B9),
        mix (seed + 3 * 0x9E3779B9), mix (seed + 4 * 0x9E3779B9)⟩)
      [0x0100])) ∧
  ∀ (s : State) (payload : List Beat), payload.length ≠ 1 →
    exec (.seed payload) s = .next (s.answered s.engine [0x0104])

/-- R111: SEEDD restores the reset registers; with a payload `LengthError`. -/
def Obligations.SeeddRestoresResetRegisters : Prop :=
  (∀ (s : State) (w : Words 64), s.engine = .engine64 w →
    exec (.seedd []) s = .next (s.answered
      (.engine64 ⟨0xE220A8397B1DCDAF, 0x6E789E6AA1B965F4, 0x06C45D188009454F, 0xF88BB8A8724C81EC⟩) [0x0200])) ∧
  (∀ (s : State) (w : Words 32), s.engine = .engine32 w →
    exec (.seedd []) s = .next (s.answered
      (.engine32 ⟨0x92CA2F0E, 0x3CD6E3F3, 0x1B147DCC, 0x4C081DBF⟩) [0x0200])) ∧
  ∀ (s : State) (payload : List Beat), payload.length ≠ 0 →
    exec (.seedd payload) s = .next (s.answered s.engine [0x0204])

/-- R44, R112: sixteen 32-bit words load the first eight into Engine64, low word first, eight load the first
four into Engine32; any other payload is `DomainError`. -/
def Obligations.SeedqPacksOrFails : Prop :=
  (∀ (s : State) (w : Words 64), s.engine = .engine64 w →
    (∀ q : List (BitVec 32), q.length = 16 →
      exec (.seedq (q.map fun v => v.setWidth 64)) s = .next (s.answered
        (.engine64 ⟨q.getD 1 0 ++ q.getD 0 0, q.getD 3 0 ++ q.getD 2 0, q.getD 5 0 ++ q.getD 4 0,
          q.getD 7 0 ++ q.getD 6 0⟩)
        [0x0300])) ∧
    (∀ payload : List Beat, payload.length ≠ 16 ∨ (∃ b ∈ payload, 2 ^ 32 ≤ b.toNat) →
      exec (.seedq payload) s = .next (s.answered s.engine [0x0302]))) ∧
  (∀ (s : State) (w : Words 32), s.engine = .engine32 w →
    (∀ q : List (BitVec 32), q.length = 8 →
      exec (.seedq (q.map fun v => v.setWidth 64)) s = .next (s.answered
        (.engine32 ⟨q.getD 0 0, q.getD 1 0, q.getD 2 0, q.getD 3 0⟩) [0x0300])) ∧
    (∀ payload : List Beat, payload.length ≠ 8 ∨ (∃ b ∈ payload, 2 ^ 32 ≤ b.toNat) →
      exec (.seedq payload) s = .next (s.answered s.engine [0x0302])))

/-- R93 (b), for every legal choice of constants: word `i` is zero exactly for one seed, at most one word is
zero, so no seed gives the all-zero state; and the constants of R91 are a legal choice. -/
def Obligations.SeedingNeverGivesZeroState : Prop :=
  (∀ (n : Nat) (p : Params n), LegalMixer p → ∀ seed : BitVec n,
    (∀ i : Fin 4, muxWord (expandSeed p seed) i = 0 ↔
      seed = -(BitVec.ofNat n (i.val + 1) * p.gamma)) ∧
    (∀ i j : Fin 4, muxWord (expandSeed p seed) i = 0 → muxWord (expandSeed p seed) j = 0 → i = j) ∧
    expandSeed p seed ≠ zeroWords n) ∧
  LegalMixer params64 ∧ LegalMixer params32

/-- R48, R110 to R112, R141: what a seeding command or DESER loads does not depend on the old registers. -/
def Obligations.LoadingForgetsOldRegisters : Prop :=
  ∀ (i : Instr) (s s' : State), s.engine.width = s'.engine.width →
    i.command = .seed ∨ i.command = .seedd ∨ i.command = .seedq ∨ i.command = .deser →
    i.wellFormed s.engine.width = true →
    ∃ (e : Engine) (r : List Beat),
      exec i s = .next (s.answered e r) ∧ exec i s' = .next (s'.answered e r)

/-! ## JUMP and LJUMP -/

/-- R125 to R127: JUMP answers the xor of the states `k` steps on, over the bits `k` set in the table, and
leaves the registers; with a payload `LengthError`. -/
def Obligations.JumpAnswersTableXor : Prop :=
  (∀ (s : State) (w : Words 64), s.engine = .engine64 w →
    let d := ((List.range 256).filter fun k => Nat.testBit
      0x39ABDC4529B1661CA9582618E03FC9AAD5A61266F0C9392C180EC6D33CFD0ABA k).foldl
      (fun acc k => xorWords acc ((stepWords params64)^[k] w)) ⟨0, 0, 0, 0⟩
    exec (.jump []) s = .next (s.answered s.engine [0x0600, d.s0, d.s1, d.s2, d.s3])) ∧
  (∀ (s : State) (w : Words 32), s.engine = .engine32 w →
    let d := ((List.range 128).filter fun k => Nat.testBit 0x77F2DB5B6FA035C3F542D2D38764000B k).foldl
      (fun acc k => xorWords acc ((stepWords params32)^[k] w)) ⟨0, 0, 0, 0⟩
    exec (.jump []) s = .next (s.answered s.engine
      [0x0600, d.s0.setWidth 64, d.s1.setWidth 64, d.s2.setWidth 64, d.s3.setWidth 64])) ∧
  ∀ (s : State) (payload : List Beat), payload.length ≠ 0 →
    exec (.jump payload) s = .next (s.answered s.engine [0x0604])

/-- R125, R126, R128: LJUMP is the same over the long-jump table; with a payload `LengthError`. -/
def Obligations.LongJumpAnswersTableXor : Prop :=
  (∀ (s : State) (w : Words 64), s.engine = .engine64 w →
    let d := ((List.range 256).filter fun k => Nat.testBit
      0x39109BB02ACBE63577710069854EE241C5004E441C522FB376E15D3EFEFDCBBF k).foldl
      (fun acc k => xorWords acc ((stepWords params64)^[k] w)) ⟨0, 0, 0, 0⟩
    exec (.ljump []) s = .next (s.answered s.engine [0x0700, d.s0, d.s1, d.s2, d.s3])) ∧
  (∀ (s : State) (w : Words 32), s.engine = .engine32 w →
    let d := ((List.range 128).filter fun k => Nat.testBit 0x1C580662CCF5A0EF0B6F099FB523952E k).foldl
      (fun acc k => xorWords acc ((stepWords params32)^[k] w)) ⟨0, 0, 0, 0⟩
    exec (.ljump []) s = .next (s.answered s.engine
      [0x0700, d.s0.setWidth 64, d.s1.setWidth 64, d.s2.setWidth 64, d.s3.setWidth 64])) ∧
  ∀ (s : State) (payload : List Beat), payload.length ≠ 0 →
    exec (.ljump payload) s = .next (s.answered s.engine [0x0704])

/-- R129 (a): the derived engine is the source engine advanced by `2^JEXP`, or `2^LEXP`, steps. -/
def Obligations.JumpAdvancesByPowerOfTwoSteps : Prop :=
  (∀ w : Words 64,
    (Engine.engine64 w).jumped = (Engine.engine64 w).stepped (2 ^ params64.jexp) ∧
    (Engine.engine64 w).longJumped = (Engine.engine64 w).stepped (2 ^ params64.lexp)) ∧
  (∀ w : Words 32,
    (Engine.engine32 w).jumped = (Engine.engine32 w).stepped (2 ^ params32.jexp) ∧
    (Engine.engine32 w).longJumped = (Engine.engine32 w).stepped (2 ^ params32.lexp)) ∧
  params64.jexp = 128 ∧ params64.lexp = 192 ∧ params32.jexp = 64 ∧ params32.lexp = 96

/-- R129 (b): for any table the advance is linear, maps zero to zero and commutes with the update. -/
def Obligations.AdvanceIsLinearAndCommutes : Prop :=
  ∀ (n : Nat) (p : Params n) (T : Words n),
    (∀ a b : Words n,
      advanceWords p T (xorWords a b) = xorWords (advanceWords p T a) (advanceWords p T b)) ∧
    advanceWords p T (zeroWords n) = zeroWords n ∧
    ∀ (k : Nat) (w : Words n), advanceWords p T (stepTimes p k w) = stepTimes p k (advanceWords p T w)

/-- R160 corner case 5: a nonzero engine differs from the engines derived from it. -/
def Obligations.DerivedEngineDiffersFromSource : Prop :=
  ∀ e : Engine, e.isZero = false → e.jumped ≠ e ∧ e.longJumped ≠ e

/-! ## Serialization and the adapter -/

/-- R140, R146, R42, R43: SER answers `s[0]` first, each word zero-extended, and changes nothing; with a
payload `LengthError`. -/
def Obligations.SerAnswersWordsInOrder : Prop :=
  (∀ (s : State) (w : Words 64), s.engine = .engine64 w →
    exec (.ser []) s = .next (s.answered s.engine [0x0800, w.s0, w.s1, w.s2, w.s3])) ∧
  (∀ (s : State) (w : Words 32), s.engine = .engine32 w →
    exec (.ser []) s = .next (s.answered s.engine
      [0x0800, w.s0.setWidth 64, w.s1.setWidth 64, w.s2.setWidth 64, w.s3.setWidth 64])) ∧
  ∀ (s : State) (payload : List Beat), payload.length ≠ 0 →
    exec (.ser payload) s = .next (s.answered s.engine [0x0804])

/-- R141, R171: four beats in range replace all four registers; any other payload is `FormatError` and
replaces none. For Engine64 every beat is in range. -/
def Obligations.DeserLoadsAllOrFails : Prop :=
  (∀ (s : State) (w : Words 64), s.engine = .engine64 w →
    (∀ v0 v1 v2 v3 : Beat,
      exec (.deser [v0, v1, v2, v3]) s = .next (s.answered (.engine64 ⟨v0, v1, v2, v3⟩) [0x0900])) ∧
    (∀ payload : List Beat, payload.length ≠ 4 →
      exec (.deser payload) s = .next (s.answered s.engine [0x0901]))) ∧
  (∀ (s : State) (w : Words 32), s.engine = .engine32 w →
    (∀ v0 v1 v2 v3 : BitVec 32,
      exec (.deser [v0.setWidth 64, v1.setWidth 64, v2.setWidth 64, v3.setWidth 64]) s =
        .next (s.answered (.engine32 ⟨v0, v1, v2, v3⟩) [0x0900])) ∧
    (∀ payload : List Beat, payload.length ≠ 4 ∨ (∃ b ∈ payload, 2 ^ 32 ≤ b.toNat) →
      exec (.deser payload) s = .next (s.answered s.engine [0x0901])))

/-- R145, at the word layer: DESER of what SER answered makes the other engine equal. -/
def Obligations.DeserOfSerCopiesEngine : Prop :=
  ∀ a b : State, a.engine.width = b.engine.width → ∃ data : List Beat,
    exec (.ser []) a = .next (a.answered a.engine (0x0800 :: data)) ∧
    exec (.deser data) b = .next (b.answered a.engine [0x0900])

/-- R160: CMPEQ answers 1 exactly when the four beats are the zero-extended registers in order; a beat out of
range is unequal, not an error; another count of beats is `LengthError`. -/
def Obligations.CmpeqAnswersEquality : Prop :=
  (∀ (s : State) (w : Words 64) (v0 v1 v2 v3 : Beat), s.engine = .engine64 w →
    exec (.cmpeq [v0, v1, v2, v3]) s = .next (s.answered s.engine
      [0x0A00, if v0 = w.s0 ∧ v1 = w.s1 ∧ v2 = w.s2 ∧ v3 = w.s3 then 1 else 0])) ∧
  (∀ (s : State) (w : Words 32) (v0 v1 v2 v3 : Beat), s.engine = .engine32 w →
    exec (.cmpeq [v0, v1, v2, v3]) s = .next (s.answered s.engine
      [0x0A00, if v0.toNat = w.s0.toNat ∧ v1.toNat = w.s1.toNat ∧ v2.toNat = w.s2.toNat ∧
        v3.toNat = w.s3.toNat then 1 else 0])) ∧
  ∀ (s : State) (payload : List Beat), payload.length ≠ 4 →
    exec (.cmpeq payload) s = .next (s.answered s.engine [0x0A04])

/-- R161: RANGE answers the two bounds and changes nothing; with a payload `LengthError`. -/
def Obligations.RangeAnswersBounds : Prop :=
  (∀ (s : State) (w : Words 64), s.engine = .engine64 w →
    exec (.range []) s = .next (s.answered s.engine [0x0B00, 0, 0xFFFFFFFFFFFFFFFF])) ∧
  (∀ (s : State) (w : Words 32), s.engine = .engine32 w →
    exec (.range []) s = .next (s.answered s.engine [0x0B00, 0, 0x00000000FFFFFFFF])) ∧
  ∀ (s : State) (payload : List Beat), payload.length ≠ 0 →
    exec (.range payload) s = .next (s.answered s.engine [0x0B04])

/-- R162: NOP answers OK and does nothing; with a payload `LengthError`. -/
def Obligations.NopOnlyAnswers : Prop :=
  (∀ s : State, exec (.nop []) s = .next (s.answered s.engine [0x0000])) ∧
  ∀ (s : State) (payload : List Beat), payload.length ≠ 0 →
    exec (.nop payload) s = .next (s.answered s.engine [0x0004])

/-! ## The text layer -/

/-- R142: a word is written as its shortest decimal numeral, digits only, of one to twenty digits; the text is
the four numerals with one space between, of 7 to 83 characters, for Engine32 to 43. -/
def Obligations.TextIsShortestNumerals : Prop :=
  (∀ v : Nat, v < 2 ^ 64 →
    (decimalText v).all isDigitChar = true ∧ decimalValue (decimalText v) = v ∧
    1 ≤ (decimalText v).length ∧ (decimalText v).length ≤ 20 ∧
    ((decimalText v).head? = some '0' → decimalText v = ['0'])) ∧
  (∀ v : Words 64,
    (textOfWords v).splitOn ' ' =
      [decimalText v.s0.toNat, decimalText v.s1.toNat, decimalText v.s2.toNat, decimalText v.s3.toNat] ∧
    7 ≤ (textOfWords v).length ∧ (textOfWords v).length ≤ 83) ∧
  (∀ v : Words 32,
    (textOfWords v).splitOn ' ' =
      [decimalText v.s0.toNat, decimalText v.s1.toNat, decimalText v.s2.toNat, decimalText v.s3.toNat] ∧
    7 ≤ (textOfWords v).length ∧ (textOfWords v).length ≤ 43)

/-- R145, at the text layer: the reader takes back what the writer wrote, and leaves unread what follows a
separator. -/
def Obligations.ParseOfTextIsIdentity : Prop :=
  ∀ rest : List Char, (∀ c, rest.head? = some c → isSpaceChar c = true) →
    (∀ v : Words 64, parseWords 64 (textOfWords v ++ rest) = .ok (v, rest)) ∧
    (∀ v : Words 32, parseWords 32 (textOfWords v ++ rest) = .ok (v, rest))

/-- R143, R144: fewer than four tokens, or a first-four token that is not valid, is `FormatError`; four valid
tokens give their values, and what stands after the fourth is left unread. -/
def Obligations.ParseReadsFourTokens : Prop :=
  ∀ (n : Nat) (tokens : List (List Char × List Char)), SeparatedTokens tokens →
    (∀ space : List Char, space.all isSpaceChar = true → tokens.length < 4 →
      parseWords n (textOfTokens tokens ++ space) = .error .formatError) ∧
    (∀ rest : List Char, (∀ c, rest.head? = some c → isSpaceChar c = true) → tokens.length = 4 →
      ((∃ x ∈ tokens, x.2.all isDigitChar = false ∨ 2 ^ n ≤ decimalValue x.2) →
        parseWords n (textOfTokens tokens ++ rest) = .error .formatError) ∧
      ((∀ x ∈ tokens, x.2.all isDigitChar = true ∧ decimalValue x.2 < 2 ^ n) →
        ∃ v : Words n, parseWords n (textOfTokens tokens ++ rest) = .ok (v, rest) ∧
          [v.s0.toNat, v.s1.toNat, v.s2.toNat, v.s3.toNat] = tokens.map fun x => decimalValue x.2))

/-- R68: a command's line reads back as the command, and with an instance name as the command for it. What a
reader accepts beside that is log 11. -/
def Obligations.AssemblerLineReadsBack : Prop :=
  ∀ i : Instr,
    parseLine (lineOf i) = some { target := none, instr := some i } ∧
    ∀ name : List Char, name ≠ [] → (∀ c ∈ name, isSpaceChar c = false ∧ c ≠ ':' ∧ c ≠ ';') →
      parseLine (lineFor name i) = some { target := some name, instr := some i }

/-! ## Whole-machine rules -/

/-- R21: a command that is no writer of the access table leaves the registers, whatever its payload. -/
def Obligations.ReadOnlyCommandsKeepRegisters : Prop :=
  ∀ (i : Instr) (s : State),
    i.command = .nop ∨ i.command = .jump ∨ i.command = .ljump ∨ i.command = .ser ∨
      i.command = .cmpeq ∨ i.command = .range →
    ∃ r : List Beat, exec i s = .next (s.answered s.engine r)

/-- R48: the commands without a side effect answer the same twice. -/
def Obligations.ReadOnlyCommandsAnswerTheSameTwice : Prop :=
  ∀ (i : Instr) (s : State),
    i.command = .nop ∨ i.command = .jump ∨ i.command = .ljump ∨ i.command = .ser ∨
      i.command = .cmpeq ∨ i.command = .range →
    ∃ (t : State) (r : List Beat),
      exec i s = .next t ∧ t.responses = s.responses ++ [r] ∧
      exec i t = .next (s.answered s.engine r |>.answered s.engine r)

/-- R4, R26: no step changes the width. -/
def Obligations.WidthNeverChanges : Prop :=
  ∀ s t : State, step s = .next t → t.engine.width = s.engine.width

/-- R23: a nonzero engine becomes zero only by DESER of four zero words or by SEEDQ of a sequence whose used
words are all zero. -/
def Obligations.OnlyLoadingZerosGivesZeroState : Prop :=
  ∀ s t : State, step s = .next t → s.engine.isZero = false → t.engine.isZero = true →
    ∃ (p : CommandPacket) (rest : List PortEvent),
      fetch s.port = .packet p rest ∧
      (decode p = .ok (.deser [0, 0, 0, 0]) ∨
        ∃ q : List Beat, decode p = .ok (.seedq q) ∧ ∀ b ∈ q.take (s.engine.width.nseq / 2), b = 0)

/-- R23: once zero, the engine stays zero: NEXT answers 0, JUMP and LJUMP four zero words. -/
def Obligations.ZeroStateIsFixed : Prop :=
  ∀ s : State, s.engine.isZero = true →
    exec (.next []) s = .next (s.answered s.engine [0x0400, 0]) ∧
    (∀ n : Beat, exec (.discard [n]) s = .next (s.answered s.engine [0x0500])) ∧
    exec (.jump []) s = .next (s.answered s.engine [0x0600, 0, 0, 0, 0]) ∧
    exec (.ljump []) s = .next (s.answered s.engine [0x0700, 0, 0, 0, 0])

/-- R66 and the model's reading of a cut-off response (log 7, DEDUCED): every step keeps it that each entry of
`responses` is a nonempty first part of a packet of R66's shape, the whole packet being one such part. The packet
has status, echo, zero bits, the number of data beats of the echoed command's row and every data beat below `2^W`;
the entry may have fewer beats, and this statement does not say which reset cut it. -/
def Obligations.StepKeepsResponsesWellFormed : Prop :=
  ∀ s t : State, s.ResponsesWellFormed → step s = .next t → t.ResponsesWellFormed

/-- The shape of the responses (log 7) holds at reset, of either width, where none has left (log 2). -/
def Obligations.ResponsesWellFormedAtReset : Prop :=
  State.reset.ResponsesWellFormed ∧ ∀ w : Width, (State.resetOf w).ResponsesWellFormed

/-! ## Several instances -/

/-- R22, R181: a packet sent to one instance touches no other. -/
def Obligations.SendingTouchesOneInstance : Prop :=
  ∀ (sys : System) (k : Nat) (p : CommandPacket),
    (sendTo sys k p).length = sys.length ∧ ∀ j : Nat, j ≠ k → (sendTo sys k p)[j]? = sys[j]?

/-- R52, R181: whole packets to different instances may be interleaved either way. -/
def Obligations.DifferentInstancesCommute : Prop :=
  ∀ (sys : System) (j k : Nat) (p q : CommandPacket), j ≠ k →
    sendTo (sendTo sys j p) k q = sendTo (sendTo sys k q) j p ∧
    responseOf (sendTo sys j p) k q = responseOf sys k q

/-- R69, R127, R128: SPAWN and LSPAWN load the derived state into the other instance and leave the source. -/
def Obligations.SpawnLoadsDerivedEngine : Prop :=
  ∀ (sys : System) (a b : Nat) (sa sb : State), a ≠ b → sys[a]? = some sa → sys[b]? = some sb →
    sa.engine.width = sb.engine.width →
    (spawn sys a b)[a]?.map (·.engine) = some sa.engine ∧
    (spawn sys a b)[b]?.map (·.engine) = some sa.engine.jumped ∧
    (longSpawn sys a b)[a]?.map (·.engine) = some sa.engine ∧
    (longSpawn sys a b)[b]?.map (·.engine) = some sa.engine.longJumped

/-- R163, R69: after COPY the two engines are equal; EQ answers 1 exactly when they are. -/
def Obligations.CopyAndEqAgree : Prop :=
  ∀ (sys : System) (a b : Nat) (sa sb : State), a ≠ b → sys[a]? = some sa → sys[b]? = some sb →
    sa.engine.width = sb.engine.width →
    (copyEngine sys a b)[a]?.map (·.engine) = some sa.engine ∧
    (copyEngine sys a b)[b]?.map (·.engine) = some sa.engine ∧
    (equalEngines sys a b).2 = [if sa.engine = sb.engine then 1 else 0]

/-- R145, R69: DESERIALIZE of SERIALIZE's text makes the other engine equal; a text that does not parse is
`FormatError` and sends nothing. -/
def Obligations.TextCarriesEngineAcross : Prop :=
  ∀ (sys : System) (a b : Nat) (sa sb : State), a ≠ b → sys[a]? = some sa → sys[b]? = some sb →
    sa.engine.width = sb.engine.width →
    (∃ sys', deserialize (serialize sys a).1 b (serialize sys a).2 = .ok sys' ∧
      sys'[a]?.map (·.engine) = some sa.engine ∧ sys'[b]?.map (·.engine) = some sa.engine) ∧
    (∀ text : List Char, parseWords sb.engine.width.bits text = .error .formatError →
      deserialize sys b text = .error .formatError)

/-- R69, R113, R190: CONSTRUCT leaves a default-constructed instance with an empty port, as a reset right after the
beats of an unfinished packet would; SEEDD on the running instance leaves the same registers and answers OK. No
other instance is touched. Positions and what else may stand at the port are log 9. -/
def Obligations.ConstructGivesDefaultEngine : Prop :=
  ∀ (sys : System) (k : Nat) (s : State), sys[k]? = some s →
    (construct sys k)[k]? = some
      { engine := (State.resetOf s.engine.width).engine, port := [], responses := s.responses } ∧
    (∀ beats : List Beat, s.port = beats.map (fun v => PortEvent.beat v false) →
      ∃ t, step (s.withPort (s.port ++ [PortEvent.reset])) = .next t ∧ (construct sys k)[k]? = some t) ∧
    (constructRunning sys k)[k]? = some
      ((s.withPort []).answered (State.resetOf s.engine.width).engine [0x0200]) ∧
    ∀ j : Nat, j ≠ k → (construct sys k)[j]? = sys[j]? ∧ (constructRunning sys k)[j]? = sys[j]?

/-- R69, R113: a command that loads all registers leaves the same instance after a reset as on the running one;
so `CONSTRUCT <seed>` and `RESEED <seed>` agree, and both answer SEED's OK. Positions are log 9. -/
def Obligations.ConstructThenLoadIgnoresReset : Prop :=
  ∀ (sys : System) (k : Nat) (s : State), sys[k]? = some s →
    (∀ i : Instr, i.command = .seed ∨ i.command = .seedd ∨ i.command = .seedq ∨ i.command = .deser →
      i.wellFormed s.engine.width = true → constructThen sys k i = sendTo sys k (encode i)) ∧
    ∀ seed : Beat,
      (constructSeed sys k seed)[k]? = some ((s.withPort []).answered (s.engine.seeded seed) [0x0100]) ∧
      reseed sys k seed = constructSeed sys k seed

/-- R69, R161: MIN and MAX are the two beats of RANGE. -/
def Obligations.MinMaxReadRange : Prop :=
  ∀ s : State, minOf s = 0 ∧
    maxOf s = (match s.engine with | .engine64 _ => 0xFFFFFFFFFFFFFFFF | .engine32 _ => 0x00000000FFFFFFFF)
end

