-- ==== Sys2Proof/Laws/Arith.lean ====
section
/-! SUPPORT. Small lemmas about the word primitives and the response header. -/

namespace Sys2Proof.Machine

@[simp] theorem zext64_self (v : BitVec 64) : zext64 v = v := by simp [zext64]

@[simp] theorem truncW_self (v : Beat) : truncW 64 v = v := by simp [truncW]

/-- A 32-bit word survives the trip through a beat. -/
@[simp] theorem truncW_zext64 (v : BitVec 32) : truncW 32 (zext64 v) = v := by
  simp [truncW, zext64]

/-- The beats the mux sends, in order. -/
theorem muxBeats_eq {n : Nat} (s : Words n) :
    muxBeats s = [zext64 s.s0, zext64 s.s1, zext64 s.s2, zext64 s.s3] := rfl

theorem shlW_xor {n : Nat} (a b : BitVec n) (k : Nat) : shlW (a ^^^ b) k = shlW a k ^^^ shlW b k := by
  simp [shlW, BitVec.shiftLeft_xor_distrib]

theorem shrW_xor {n : Nat} (a b : BitVec n) (k : Nat) : shrW (a ^^^ b) k = shrW a k ^^^ shrW b k := by
  simp [shrW, BitVec.ushiftRight_xor_distrib]

@[simp] theorem shlW_zero_word {n : Nat} (k : Nat) : shlW 0#n k = 0#n := by simp [shlW]

@[simp] theorem rotlW_zero_word {n : Nat} (k : Nat) : rotlW 0#n k = 0#n := by
  simp [rotlW, shlW, shrW]

/-- The rule's rotation is the library's, for the amounts the rule allows. -/
theorem rotlW_eq_rotateLeft {n : Nat} (x : BitVec n) (k : Nat) (h : k < n) :
    rotlW x k = x.rotateLeft k := by
  simp [rotlW, shlW, shrW, BitVec.rotateLeft, BitVec.rotateLeftAux, Nat.mod_eq_of_lt h]

/-- The header as a number: status in the low byte, echo above it. -/
theorem responseHeader_eq (st : Status) (echo : BitVec 8) :
    responseHeader st echo = BitVec.ofNat 64 ((statusCode st).toNat + 256 * echo.toNat) := by
  have he := echo.isLt
  have hs : (statusCode st).toNat < 2 ^ 8 := (statusCode st).isLt
  apply BitVec.eq_of_toNat_eq
  have h1 : (echo.toNat <<< 8) % 18446744073709551616 = echo.toNat <<< 8 := by
    rw [Nat.shiftLeft_eq]; omega
  have h2 : (statusCode st).toNat % 18446744073709551616 = (statusCode st).toNat := by omega
  have h3 : echo.toNat % 18446744073709551616 = echo.toNat := by omega
  have h4 := Nat.shiftLeft_add_eq_or_of_lt hs echo.toNat
  have h5 : echo.toNat <<< 8 = 256 * echo.toNat := by rw [Nat.shiftLeft_eq]; omega
  simp only [responseHeader, BitVec.toNat_or, BitVec.toNat_shiftLeft, BitVec.toNat_setWidth, BitVec.toNat_ofNat]
  norm_num
  rw [h2, h3, h1, ← h4, h5]
  omega

/-- The echo field of a response header is the echo (30_encoding.md R66). -/
theorem responseHeader_echo (st : Status) (echo : BitVec 8) :
    (responseHeader st echo).extractLsb' 8 8 = echo := by
  have he := echo.isLt
  have hs : (statusCode st).toNat < 2 ^ 8 := (statusCode st).isLt
  apply BitVec.eq_of_toNat_eq
  simp only [responseHeader_eq, BitVec.extractLsb'_toNat, BitVec.toNat_ofNat, Nat.shiftRight_eq_div_pow]
  omega

/-- The status field of a response header is the status's code (30_encoding.md R66). -/
theorem responseHeader_status (st : Status) (echo : BitVec 8) :
    (responseHeader st echo).extractLsb' 0 8 = statusCode st := by
  have he := echo.isLt
  have hs : (statusCode st).toNat < 2 ^ 8 := (statusCode st).isLt
  apply BitVec.eq_of_toNat_eq
  simp only [responseHeader_eq, BitVec.extractLsb'_toNat, BitVec.toNat_ofNat, Nat.shiftRight_eq_div_pow]
  omega

end Sys2Proof.Machine
end

