-- ==== Sys2Proof/Laws/Encoding.lean ====
section
/-! SUPPORT. Facts about the opcode table and the header fields (30_encoding.md R61, R64). -/

namespace Sys2Proof

/-- A command's header has its reserved field zero. -/
@[simp] theorem headerReserved_opcode (c : Command) : headerReserved (c.opcode.setWidth 64) = 0 := by
  cases c <;> decide

/-- A command's header has its opcode in the opcode field. -/
@[simp] theorem headerOpcode_opcode (c : Command) : headerOpcode (c.opcode.setWidth 64) = c.opcode := by
  cases c <;> decide

/-- A command's opcode is assigned to it in the table. -/
@[simp] theorem commandOfOpcode_opcode (c : Command) :
    commandOfOpcode c.opcode = some c := by
  cases c <;> decide

/-- No two rows of the opcode map overlap. -/
theorem opcodeTable_no_overlap : opcodeTable.Pairwise fun a b => a.opcode ≠ b.opcode := by decide

/-- The table gives every command the opcode the encoder gives it. -/
theorem opcodeTable_opcode : ∀ row ∈ opcodeTable, row.opcode = row.command.opcode := by decide

/-- A header is its two fields (30_encoding.md R61). -/
theorem header_of_fields (h : Beat) :
    h.toNat = (headerOpcode h).toNat + 256 * (headerReserved h).toNat := by
  have := h.isLt
  simp only [headerOpcode, headerReserved, BitVec.extractLsb'_toNat, Nat.shiftRight_eq_div_pow]
  omega

@[simp] theorem Instr.command_ofCommand (c : Command) (p : List Beat) :
    (Instr.ofCommand c p).command = c := by
  cases c <;> rfl

@[simp] theorem Instr.payload_ofCommand (c : Command) (p : List Beat) :
    (Instr.ofCommand c p).payload = p := by
  cases c <;> rfl

@[simp] theorem Instr.ofCommand_self (i : Instr) : Instr.ofCommand i.command i.payload = i := by
  cases i <;> rfl

end Sys2Proof
end

