-- ==== Sys2Proof/Laws/State.lean ====
section
/-! SUPPORT. One lemma per field and per update of State, so that no later proof unfolds a record update. -/

namespace Sys2Proof.Machine

@[simp] theorem State.emit_engine (s : State) (r : List Beat) : (s.emit r).engine = s.engine := rfl
@[simp] theorem State.emit_port (s : State) (r : List Beat) : (s.emit r).port = s.port := rfl
@[simp] theorem State.emit_responses (s : State) (r : List Beat) :
    (s.emit r).responses = s.responses ++ [r] := rfl

@[simp] theorem State.withEngine_engine (s : State) (e : Engine) : (s.withEngine e).engine = e := rfl
@[simp] theorem State.withEngine_port (s : State) (e : Engine) : (s.withEngine e).port = s.port := rfl
@[simp] theorem State.withEngine_responses (s : State) (e : Engine) :
    (s.withEngine e).responses = s.responses := rfl
@[simp] theorem State.withEngine_self (s : State) : s.withEngine s.engine = s := rfl

@[simp] theorem State.withPort_engine (s : State) (q : List PortEvent) :
    (s.withPort q).engine = s.engine := rfl
@[simp] theorem State.withPort_port (s : State) (q : List PortEvent) : (s.withPort q).port = q := rfl
@[simp] theorem State.withPort_responses (s : State) (q : List PortEvent) :
    (s.withPort q).responses = s.responses := rfl
@[simp] theorem State.withPort_withPort (s : State) (q r : List PortEvent) :
    (s.withPort q).withPort r = s.withPort r := rfl
@[simp] theorem State.withPort_self (s : State) : s.withPort s.port = s := rfl

@[simp] theorem State.answered_engine (s : State) (e : Engine) (r : List Beat) :
    (s.answered e r).engine = e := rfl
@[simp] theorem State.answered_port (s : State) (e : Engine) (r : List Beat) :
    (s.answered e r).port = s.port := rfl
@[simp] theorem State.answered_responses (s : State) (e : Engine) (r : List Beat) :
    (s.answered e r).responses = s.responses ++ [r] := rfl

@[simp] theorem State.applyReset_engine (s : State) : s.applyReset.engine = Engine.construct s.engine.width := rfl
@[simp] theorem State.applyReset_port (s : State) : s.applyReset.port = s.port := rfl
@[simp] theorem State.applyReset_responses (s : State) : s.applyReset.responses = s.responses := rfl

@[simp] theorem State.cutShort_engine (s t : State) (k : Nat) (q : List PortEvent) :
    (s.cutShort t k q).engine = Engine.construct s.engine.width := rfl
@[simp] theorem State.cutShort_port (s t : State) (k : Nat) (q : List PortEvent) :
    (s.cutShort t k q).port = q := rfl

@[simp] theorem State.resetOf_engine (w : Width) : (State.resetOf w).engine = Engine.construct w := rfl
@[simp] theorem State.resetOf_port (w : Width) : (State.resetOf w).port = [] := rfl
@[simp] theorem State.resetOf_responses (w : Width) : (State.resetOf w).responses = [] := rfl

/-- A response emitted after a register update is one answer. -/
@[simp] theorem State.withEngine_respond (s : State) (e : Engine) (c : Command) (data : List Beat) :
    (s.withEngine e).respond c data = s.answered e (responseHeader .ok c.opcode :: data) := rfl

/-- A response without a register update is an answer that keeps the registers. -/
theorem State.respond_eq_answered (s : State) (c : Command) (data : List Beat) :
    s.respond c data = s.answered s.engine (responseHeader .ok c.opcode :: data) := rfl

/-- An error is an answer of one beat that keeps the registers: all that taking an error can do. -/
theorem State.raise_eq_answered (s : State) (st : Status) (echo : BitVec 8) :
    s.raise st echo = s.answered s.engine [responseHeader st echo] := rfl

/-- A cut answer: of the one response nothing leaves where no beat had, else its first beats. -/
theorem State.cutShort_answered_responses (s : State) (e : Engine) (h : Beat) (data : List Beat) (k : Nat)
    (q : List PortEvent) :
    (s.cutShort (s.answered e (h :: data)) k q).responses =
      s.responses ++ (if k = 0 then [] else [(h :: data).take k]) := by
  cases k <;> simp [State.cutShort]

end Sys2Proof.Machine
end

