-- ==== Sys2Proof/Laws/Port.lean ====
section
/-! SUPPORT. What the engine finds at its port: one lemma for each way the port can stand. -/

namespace Sys2Proof.Machine

/-- A whole packet is fetched, with whatever follows it left at the port. -/
theorem fetch_packetEvents (p : CommandPacket) (rest : List PortEvent) :
    fetch (packetEvents p ++ rest) = .packet p rest := by
  obtain ⟨h, payload⟩ := p
  simp only [packetEvents]
  induction payload generalizing h with
  | nil => rfl
  | cons u us ih => simp [payloadEvents, fetch, ih u]

/-- Beats of which none is the last are no packet. -/
theorem fetch_unfinished (beats : List Beat) :
    fetch (beats.map fun v => PortEvent.beat v false) = .idle := by
  induction beats with
  | nil => rfl
  | cons v vs ih => simp [fetch, ih]

/-- A reset abandons the beats of an unfinished packet before it. -/
theorem fetch_unfinished_reset (beats : List Beat) (rest : List PortEvent) :
    fetch ((beats.map fun v => PortEvent.beat v false) ++ PortEvent.reset :: rest) = .reset rest := by
  induction beats with
  | nil => rfl
  | cons v vs ih => simp [fetch, ih]

/-- What a fetch took from the port was there: the packet's events stand before what is left. -/
theorem port_of_fetch_packet {port rest : List PortEvent} {p : CommandPacket}
    (h : fetch port = .packet p rest) : port = packetEvents p ++ rest := by
  induction port generalizing p rest with
  | nil => simp [fetch] at h
  | cons e es ih =>
    match e with
    | .reset => simp [fetch] at h
    | .resetDuring k => simp [fetch] at h
    | .beat v true =>
      simp only [fetch, Fetch.packet.injEq] at h
      obtain ⟨rfl, rfl⟩ := h
      rfl
    | .beat v false =>
      simp only [fetch] at h
      split at h
      · cases h
      · cases h
      · rename_i q r hq
        simp only [Fetch.packet.injEq] at h
        obtain ⟨rfl, rfl⟩ := h
        rw [ih hq]
        rfl

end Sys2Proof.Machine
end

