-- ==== Sys2Proof/Laws/Meanings.lean ====
section
/-! SUPPORT. Say once what a command and a step can do; later proofs cite these instead of unfolding. -/

namespace Sys2Proof.Machine

/-- The operand forms, as equations on the payload. -/
theorem noOperand_iff (payload : List Beat) : noOperand payload = true ↔ payload = [] := by
  cases payload <;> simp [noOperand]

theorem scalarOperand_eq_some {payload : List Beat} {x : Beat} :
    scalarOperand payload = some x ↔ payload = [x] := by
  match payload with
  | [] => simp [scalarOperand]
  | [y] => simp [scalarOperand]
  | _ :: _ :: _ => simp [scalarOperand]

theorem scalarOperand_eq_none {payload : List Beat} :
    scalarOperand payload = none ↔ payload.length ≠ 1 := by
  match payload with
  | [] => simp [scalarOperand]
  | [y] => simp [scalarOperand]
  | _ :: _ :: _ => simp [scalarOperand]

theorem quadOperand_eq_some {payload : List Beat} {v : Words 64} :
    quadOperand payload = some v ↔ payload = [v.s0, v.s1, v.s2, v.s3] := by
  obtain ⟨a, b, c, d⟩ := v
  match payload with
  | [] => simp [quadOperand]
  | [_] => simp [quadOperand]
  | [_, _] => simp [quadOperand]
  | [_, _, _] => simp [quadOperand]
  | [_, _, _, _] => simp [quadOperand]
  | _ :: _ :: _ :: _ :: _ :: _ => simp [quadOperand]

theorem quadOperand_eq_none {payload : List Beat} :
    quadOperand payload = none ↔ payload.length ≠ 4 := by
  match payload with
  | [] => simp [quadOperand]
  | [_] => simp [quadOperand]
  | [_, _] => simp [quadOperand]
  | [_, _, _] => simp [quadOperand]
  | [_, _, _, _] => simp [quadOperand]
  | _ :: _ :: _ :: _ :: _ :: _ => simp [quadOperand]

/-- What registers a command can leave, and that it is answered with one response packet: everything
`exec` can do. -/
theorem exec_cases (i : Instr) (s : State) :
    ∃ (e : Engine) (st : Status) (data : List Beat),
      exec i s = .next (s.answered e (responseHeader st i.command.opcode :: data)) ∧
      ((e = s.engine ∧ st ≠ .ok ∧ data = []) ∨
        (st = .ok ∧
          ((e = s.engine ∧ (i = .nop [] ∨ i = .jump [] ∨ i = .ljump [] ∨ i = .ser [] ∨ i = .range [] ∨
              ∃ v : Words 64, i = .cmpeq [v.s0, v.s1, v.s2, v.s3])) ∨
            (i = .next [] ∧ e = s.engine.stepped 1) ∨
            (∃ n, i = .discard [n] ∧ e = s.engine.stepped n.toNat) ∨
            (∃ x, i = .seed [x] ∧ e = s.engine.seeded x) ∨
            (i = .seedd [] ∧ e = s.engine.seededDefault) ∨
            (∃ q, i = .seedq q ∧ s.engine.sequenceOk q = true ∧ e = s.engine.packed q) ∨
            (∃ v : Words 64, i = .deser [v.s0, v.s1, v.s2, v.s3] ∧ s.engine.fitsWords v = true ∧
              e = s.engine.loaded v)))) := by
  cases i with
  | nop p =>
    by_cases h : noOperand p = true
    · obtain rfl := (noOperand_iff p).1 h
      exact ⟨s.engine, .ok, [], rfl, by simp⟩
    · exact ⟨s.engine, .lengthError, [], by simp [exec, execNop, h]; rfl, by simp⟩
  | seed p =>
    cases h : scalarOperand p with
    | some x =>
      obtain rfl := scalarOperand_eq_some.1 h
      exact ⟨s.engine.seeded x, .ok, [], rfl, by simp⟩
    | none => exact ⟨s.engine, .lengthError, [], by simp [exec, execSeed, h]; rfl, by simp⟩
  | seedd p =>
    by_cases h : noOperand p = true
    · obtain rfl := (noOperand_iff p).1 h
      exact ⟨s.engine.seededDefault, .ok, [], rfl, by simp⟩
    · exact ⟨s.engine, .lengthError, [], by simp [exec, execSeedd, h]; rfl, by simp⟩
  | seedq p =>
    by_cases h : s.engine.sequenceOk p = true
    · exact ⟨s.engine.packed p, .ok, [], by simp [exec, execSeedq, h]; rfl, by simp [h]⟩
    · exact ⟨s.engine, .domainError, [], by simp [exec, execSeedq, h]; rfl, by simp⟩
  | next p =>
    by_cases h : noOperand p = true
    · obtain rfl := (noOperand_iff p).1 h
      exact ⟨s.engine.stepped 1, .ok, [s.engine.output], rfl, by simp⟩
    · exact ⟨s.engine, .lengthError, [], by simp [exec, execNext, h]; rfl, by simp⟩
  | discard p =>
    cases h : scalarOperand p with
    | some n =>
      obtain rfl := scalarOperand_eq_some.1 h
      exact ⟨s.engine.stepped n.toNat, .ok, [], rfl, by simp⟩
    | none => exact ⟨s.engine, .lengthError, [], by simp [exec, execDiscard, h]; rfl, by simp⟩
  | jump p =>
    by_cases h : noOperand p = true
    · obtain rfl := (noOperand_iff p).1 h
      exact ⟨s.engine, .ok, s.engine.jumped.words, rfl, by simp⟩
    · exact ⟨s.engine, .lengthError, [], by simp [exec, execJump, h]; rfl, by simp⟩
  | ljump p =>
    by_cases h : noOperand p = true
    · obtain rfl := (noOperand_iff p).1 h
      exact ⟨s.engine, .ok, s.engine.longJumped.words, rfl, by simp⟩
    · exact ⟨s.engine, .lengthError, [], by simp [exec, execLjump, h]; rfl, by simp⟩
  | ser p =>
    by_cases h : noOperand p = true
    · obtain rfl := (noOperand_iff p).1 h
      exact ⟨s.engine, .ok, s.engine.words, rfl, by simp⟩
    · exact ⟨s.engine, .lengthError, [], by simp [exec, execSer, h]; rfl, by simp⟩
  | deser p =>
    cases h : quadOperand p with
    | some v =>
      obtain rfl := quadOperand_eq_some.1 h
      by_cases hv : s.engine.fitsWords v = true
      · exact ⟨s.engine.loaded v, .ok, [], by simp [exec, execDeser, h, hv]; rfl,
          .inr ⟨rfl, .inr (.inr (.inr (.inr (.inr (.inr ⟨v, rfl, hv, rfl⟩)))))⟩⟩
      · exact ⟨s.engine, .formatError, [], by simp [exec, execDeser, h, hv]; rfl, by simp⟩
    | none => exact ⟨s.engine, .formatError, [], by simp [exec, execDeser, h]; rfl, by simp⟩
  | cmpeq p =>
    cases h : quadOperand p with
    | some v =>
      obtain rfl := quadOperand_eq_some.1 h
      exact ⟨s.engine, .ok, [truthBeat (s.engine.equalsWords v)], rfl,
        .inr ⟨rfl, .inl ⟨rfl, .inr (.inr (.inr (.inr (.inr ⟨v, rfl⟩))))⟩⟩⟩
    | none => exact ⟨s.engine, .lengthError, [], by simp [exec, execCmpeq, h]; rfl, by simp⟩
  | range p =>
    by_cases h : noOperand p = true
    · obtain rfl := (noOperand_iff p).1 h
      exact ⟨s.engine, .ok, [minOutput, s.engine.maxOutput], rfl, by simp⟩
    · exact ⟨s.engine, .lengthError, [], by simp [exec, execRange, h]; rfl, by simp⟩

/-- A command reads nothing but the registers: with equal registers, whatever stands at the ports, it leaves
equal registers and answers alike. -/
theorem exec_reads_registers_only (i : Instr) (s s' : State) (h : s.engine = s'.engine) :
    ∃ (e : Engine) (r : List Beat), exec i s = .next (s.answered e r) ∧ exec i s' = .next (s'.answered e r) := by
  cases i with
  | nop p => simp only [exec, execNop]; split <;> exact ⟨_, _, rfl, by rw [h]; rfl⟩
  | seed p => simp only [exec, execSeed]; split <;> exact ⟨_, _, rfl, by rw [h]; rfl⟩
  | seedd p => simp only [exec, execSeedd]; split <;> exact ⟨_, _, rfl, by rw [h]; rfl⟩
  | seedq p => simp only [exec, execSeedq, ← h]; split <;> exact ⟨_, _, rfl, by rw [h]; rfl⟩
  | next p => simp only [exec, execNext]; split <;> exact ⟨_, _, rfl, by rw [h]; rfl⟩
  | discard p => simp only [exec, execDiscard]; split <;> exact ⟨_, _, rfl, by rw [h]; rfl⟩
  | jump p => simp only [exec, execJump]; split <;> exact ⟨_, _, rfl, by rw [h]; rfl⟩
  | ljump p => simp only [exec, execLjump]; split <;> exact ⟨_, _, rfl, by rw [h]; rfl⟩
  | ser p => simp only [exec, execSer]; split <;> exact ⟨_, _, rfl, by rw [h]; rfl⟩
  | deser p =>
    simp only [exec, execDeser, ← h]
    split
    · exact ⟨_, _, rfl, by rw [h]; rfl⟩
    · split <;> exact ⟨_, _, rfl, by rw [h]; rfl⟩
  | cmpeq p => simp only [exec, execCmpeq]; split <;> exact ⟨_, _, rfl, by rw [h]; rfl⟩
  | range p => simp only [exec, execRange]; split <;> exact ⟨_, _, rfl, by rw [h]; rfl⟩

/-- A packet that decodes is its command executed; any other is answered `IllegalCommand`. -/
theorem runPacket_cases (p : CommandPacket) (s : State) :
    (∃ i, decode p = .ok i ∧ runPacket p s = exec i s) ∨
      ((∃ x, decode p = .error x) ∧
        runPacket p s =
          .next (s.answered s.engine [responseHeader .illegalCommand (headerOpcode p.header)])) := by
  cases h : decode p with
  | ok i => exact .inl ⟨i, rfl, by simp [runPacket, h]⟩
  | error x => exact .inr ⟨⟨x, rfl⟩, by simp [runPacket, h]; rfl⟩

/-- Every packet is answered: one response packet, never an empty one. -/
theorem runPacket_answers (p : CommandPacket) (s : State) :
    ∃ (e : Engine) (header : Beat) (data : List Beat),
      runPacket p s = .next (s.answered e (header :: data)) := by
  obtain ⟨i, -, h⟩ | ⟨-, h⟩ := runPacket_cases p s
  · obtain ⟨e, st, data, he, -⟩ := exec_cases i s
    exact ⟨e, _, data, h.trans he⟩
  · exact ⟨_, _, _, h⟩

/-- A packet, too, is answered from the registers alone. -/
theorem runPacket_reads_registers_only (p : CommandPacket) (s s' : State) (h : s.engine = s'.engine) :
    ∃ (e : Engine) (header : Beat) (data : List Beat),
      runPacket p s = .next (s.answered e (header :: data)) ∧
      runPacket p s' = .next (s'.answered e (header :: data)) := by
  cases hd : decode p with
  | ok i =>
    obtain ⟨e, r, h1, h2⟩ := exec_reads_registers_only i s s' h
    obtain ⟨e', st, data, h3, -⟩ := exec_cases i s
    rw [h3] at h1
    simp only [Host.Outcome.next.injEq, State.answered, State.mk.injEq, List.append_cancel_left_eq,
      List.cons.injEq, and_true, true_and] at h1
    obtain ⟨rfl, rfl⟩ := h1
    exact ⟨e', responseHeader st i.command.opcode, data, by simp [runPacket, hd, h3], by simp [runPacket, hd, h2]⟩
  | error x =>
    exact ⟨s.engine, responseHeader .illegalCommand (headerOpcode p.header), [],
      by simp [runPacket, hd]; rfl, by simp [runPacket, hd, h]; rfl⟩

/-- The three things a step can do: nothing, take a reset, or run the packet at the port, with or without a
reset that cuts it short. -/
theorem step_cases (s : State) :
    (fetch s.port = .idle ∧ step s = .next s) ∨
      (∃ rest, fetch s.port = .reset rest ∧ step s = .next (s.withPort rest).applyReset) ∨
      (∃ p rest, fetch s.port = .packet p rest ∧ interruption rest = none ∧
        step s = runPacket p (s.withPort rest)) ∨
      (∃ p rest sent rest' t, fetch s.port = .packet p rest ∧ interruption rest = some (sent, rest') ∧
        runPacket p (s.withPort rest') = .next t ∧
        step s = .next ((s.withPort rest').cutShort t sent rest')) := by
  cases hf : fetch s.port with
  | idle => exact .inl ⟨rfl, by simp [step, hf]⟩
  | reset rest => exact .inr (.inl ⟨rest, rfl, by simp [step, hf]⟩)
  | packet p rest =>
    cases hi : interruption rest with
    | none => exact .inr (.inr (.inl ⟨p, rest, rfl, hi, by simp [step, hf, hi]⟩))
    | some x =>
      obtain ⟨sent, rest'⟩ := x
      obtain ⟨e, header, data, h⟩ := runPacket_answers p (s.withPort rest')
      exact .inr (.inr (.inr ⟨p, rest, sent, rest', _, rfl, hi, h, by simp [step, hf, hi, h]⟩))

/-- No register operation changes the width. -/
@[simp] theorem Engine.width_construct (w : Width) : (Engine.construct w).width = w := by
  cases w <;> simp only [Engine.construct, Engine.width]

@[simp] theorem Engine.width_afterReset (e : Engine) : e.afterReset.width = e.width := by
  simp only [Engine.afterReset, Engine.width_construct]

@[simp] theorem Engine.width_stepped (k : Nat) (e : Engine) : (e.stepped k).width = e.width := by
  cases e <;> simp only [Engine.stepped, Engine.width]

@[simp] theorem Engine.width_seeded (x : Beat) (e : Engine) : (e.seeded x).width = e.width := by
  cases e <;> simp only [Engine.seeded, Engine.width]

@[simp] theorem Engine.width_seededDefault (e : Engine) : e.seededDefault.width = e.width := by
  cases e <;> simp only [Engine.seededDefault, Engine.width]

@[simp] theorem Engine.width_packed (q : List Beat) (e : Engine) : (e.packed q).width = e.width := by
  cases e <;> simp only [Engine.packed, Engine.width]

@[simp] theorem Engine.width_loaded (v : Words 64) (e : Engine) : (e.loaded v).width = e.width := by
  cases e <;> simp only [Engine.loaded, Engine.width]

@[simp] theorem Engine.width_jumped (e : Engine) : e.jumped.width = e.width := by
  cases e <;> simp only [Engine.jumped, Engine.width]

@[simp] theorem Engine.width_longJumped (e : Engine) : e.longJumped.width = e.width := by
  cases e <;> simp only [Engine.longJumped, Engine.width]

end Sys2Proof.Machine
end

