-- ==== Sys2Proof/Laws/PerInstr.lean ====
section
/-! SUPPORT. One statement about each command as data: the packet it is encoded as has a header that the
opcode map assigns (30_encoding.md R61, R64), and the command is its name with its payload. -/

namespace Sys2Proof.Laws.HeaderAssigned

/-- The header's reserved field is zero, its opcode field is assigned to the command, the payload is kept. -/
def Statement (i : Instr) : Prop :=
  headerReserved (encode i).header = 0 ∧
    commandOfOpcode (headerOpcode (encode i).header) = some i.command ∧ (encode i).payload = i.payload

/-- The statement follows from the command alone. -/
theorem of_command (i : Instr) : Statement i :=
  ⟨headerReserved_opcode i.command, by simp [encode], rfl⟩

theorem nop (p : List Beat) : Statement (.nop p) := of_command _
theorem seed (p : List Beat) : Statement (.seed p) := of_command _
theorem seedd (p : List Beat) : Statement (.seedd p) := of_command _
theorem seedq (p : List Beat) : Statement (.seedq p) := of_command _
theorem next (p : List Beat) : Statement (.next p) := of_command _
theorem discard (p : List Beat) : Statement (.discard p) := of_command _
theorem jump (p : List Beat) : Statement (.jump p) := of_command _
theorem ljump (p : List Beat) : Statement (.ljump p) := of_command _
theorem ser (p : List Beat) : Statement (.ser p) := of_command _
theorem deser (p : List Beat) : Statement (.deser p) := of_command _
theorem cmpeq (p : List Beat) : Statement (.cmpeq p) := of_command _
theorem range (p : List Beat) : Statement (.range p) := of_command _

end Sys2Proof.Laws.HeaderAssigned
end

