-- ==== Sys2Proof/Laws/Pipeline.lean ====
section
/-! SUPPORT. The state update in closed form and its iteration (41_next.md R101). -/

namespace Sys2Proof.Machine

/-- The sequential form of the update is its closed form. -/
theorem stepWords_closed {n : Nat} (p : Params n) (s : Words n) :
    stepWords p s =
      ⟨s.s0 ^^^ s.s1 ^^^ s.s3, s.s0 ^^^ s.s1 ^^^ s.s2, s.s0 ^^^ s.s2 ^^^ shlW s.s1 p.shiftA,
        rotlW (s.s1 ^^^ s.s3) p.rotB⟩ := by
  simp only [stepWords, Words.mk.injEq]
  refine ⟨?_, ?_, ?_, ?_⟩
  · ac_rfl
  · ac_rfl
  · ac_rfl
  · rw [BitVec.xor_comm s.s3]

@[simp] theorem stepTimes_zero {n : Nat} (p : Params n) (s : Words n) : stepTimes p 0 s = s := rfl

theorem stepTimes_succ {n : Nat} (p : Params n) (k : Nat) (s : Words n) :
    stepTimes p (k + 1) s = stepTimes p k (stepWords p s) := rfl

@[simp] theorem stepTimes_one {n : Nat} (p : Params n) (s : Words n) : stepTimes p 1 s = stepWords p s := rfl

/-- The repetition is the library's iteration. -/
theorem stepTimes_eq_iterate {n : Nat} (p : Params n) (k : Nat) (s : Words n) :
    stepTimes p k s = (stepWords p)^[k] s := by
  induction k generalizing s with
  | zero => rfl
  | succ k ih => rw [stepTimes_succ, ih, Function.iterate_succ_apply]

/-- Steps add up. -/
theorem stepTimes_add {n : Nat} (p : Params n) (j k : Nat) (s : Words n) :
    stepTimes p (j + k) s = stepTimes p j (stepTimes p k s) := by
  simp only [stepTimes_eq_iterate, Function.iterate_add_apply]

/-- Every update cycle of a jump takes one step, whatever the bit (44_jump.md R129 (c)). -/
theorem tableBits_length {n : Nat} (T : Words n) : (tableBits T).length = 4 * n := by
  simp only [tableBits, wordBits, List.length_append, List.length_map, List.length_range]
  omega

end Sys2Proof.Machine
end

