-- ==== Sys2Proof/Laws/System.lean ====
section
/-! SUPPORT. What the host's sequences do to one instance, said once; the sequences over a system are built of
these. -/

namespace Sys2Proof.Machine

@[simp] theorem State.resetNow_engine (s : State) : s.resetNow.engine = Engine.construct s.engine.width := rfl
@[simp] theorem State.resetNow_port (s : State) : s.resetNow.port = [] := rfl
@[simp] theorem State.resetNow_responses (s : State) : s.resetNow.responses = s.responses := rfl

/-- A transaction is one answer: the registers and the response of the packet, the port empty again. -/
theorem State.transact_cases (s : State) (p : CommandPacket) :
    ∃ (e : Engine) (r : List Beat), runPacket p (s.withPort []) = .next ((s.withPort []).answered e r) ∧
      s.transact p = ((s.withPort []).answered e r, r) := by
  obtain ⟨e, h, data, hr⟩ := runPacket_answers p (s.withPort [])
  have hf : fetch (packetEvents p) = .packet p [] := by simpa using fetch_packetEvents p []
  exact ⟨e, h :: data, hr, by simp [State.transact, step, hf, interruption, hr]⟩

/-- What an instance does with a packet reaches no other position. -/
theorem sendTo_of_ne (sys : System) {j k : Nat} (p : CommandPacket) (h : j ≠ k) :
    (sendTo sys k p)[j]? = sys[j]? := by
  unfold sendTo
  split
  · simp [h.symm]
  · rfl

/-- A packet to a position that has an instance is a transaction of it. -/
theorem sendTo_self {sys : System} {k : Nat} {s : State} (p : CommandPacket) (h : sys[k]? = some s) :
    (sendTo sys k p)[k]? = some (s.transact p).1 := by
  obtain ⟨hk, rfl⟩ := List.getElem?_eq_some_iff.1 h
  simp [sendTo, hk]

/-- CONSTRUCT resets the instance. -/
theorem construct_self {sys : System} {k : Nat} {s : State} (h : sys[k]? = some s) :
    (construct sys k)[k]? = some s.resetNow := by
  obtain ⟨hk, rfl⟩ := List.getElem?_eq_some_iff.1 h
  simp [construct, hk]

/-- CONSTRUCT reaches no other position. -/
theorem construct_of_ne (sys : System) {j k : Nat} (h : j ≠ k) : (construct sys k)[j]? = sys[j]? := by
  unfold construct
  split
  · simp [h.symm]
  · rfl

end Sys2Proof.Machine
end

