-- ==== Sys2Proof/Tests/Slice0.lean ====
section
/-! SUPPORT. The model's own tests. Every expected value is written out from the vectors of 95_test_vectors.md
and 97_test_vectors_continued.md, the programs of 96_programs_and_scripts.md or the tables of the rules; none
is the model's own answer. After them the witnesses: values that meet the hypotheses of the statements. -/

namespace Sys2Proof.Tests

open Sys2Proof Sys2Proof.Machine

/-- An Engine64 with nothing at its port and nothing answered. -/
def e64 (s0 s1 s2 s3 : BitVec 64) : State :=
  { engine := .engine64 ⟨s0, s1, s2, s3⟩, port := [], responses := [] }

/-- An Engine32 with nothing at its port and nothing answered. -/
def e32 (s0 s1 s2 s3 : BitVec 32) : State :=
  { engine := .engine32 ⟨s0, s1, s2, s3⟩, port := [], responses := [] }

/-- The next state, if there is one. -/
def after (o : Host.Outcome State Fault Refusal) : Option State :=
  match o with
  | .next s => some s
  | .fault _ => none
  | .refused _ => none

/-- `after` tells the next state. -/
theorem next_of_after {o : Host.Outcome State Fault Refusal} {t : State} (h : after o = some t) :
    o = .next t := by
  cases o with
  | next s => exact congrArg _ (Option.some.inj h)
  | fault r => exact nomatch h
  | refused r => exact nomatch h

/-- One step on a packet of these beats: the registers afterwards and the response. -/
def ran (s : State) (header : Beat) (payload : List Beat) : Option (Engine × List (List Beat)) :=
  (after (step (s.withPort (packetEvents ⟨header, payload⟩)))).map fun t => (t.engine, t.responses)

/-- The value of a parse, if there is one. -/
def parsed {n : Nat} (r : Except Status (Words n × List Char)) : Option (Words n × List Char) :=
  match r with
  | .ok v => some v
  | .error _ => none

/-- The instruction of a decoding, if there is one. -/
def decoded (p : CommandPacket) : Option Instr :=
  match decode p with
  | .ok i => some i
  | .error _ => none

/-! ## Well-formedness: an ill-formed term for each check -/

theorem test_wf_z : (Instr.next []).wellFormed .w64 = true ∧ (Instr.next [0]).wellFormed .w64 = false := by
  decide
theorem test_wf_s : (Instr.seed [7]).wellFormed .w32 = true ∧ (Instr.seed []).wellFormed .w32 = false ∧
    (Instr.discard [1, 2]).wellFormed .w64 = false := by decide
theorem test_wf_q : (Instr.cmpeq [1, 2, 3, 4]).wellFormed .w64 = true ∧
    (Instr.cmpeq [1, 2, 3]).wellFormed .w64 = false := by decide
theorem test_wf_v_length : (Instr.seedq (List.replicate 16 0)).wellFormed .w64 = true ∧
    (Instr.seedq (List.replicate 15 0)).wellFormed .w64 = false ∧
    (Instr.seedq (List.replicate 8 0)).wellFormed .w32 = true ∧
    (Instr.seedq (List.replicate 16 0)).wellFormed .w32 = false := by decide
theorem test_wf_deser_range : (Instr.deser [1, 2, 3, 0xFFFFFFFF]).wellFormed .w32 = true ∧
    (Instr.deser [1, 2, 3, 0x100000000]).wellFormed .w32 = false ∧
    (Instr.deser [1, 2, 3, 0x100000000]).wellFormed .w64 = true := by decide
theorem test_wf_seedq_range :
    (Instr.seedq (List.replicate 15 0 ++ [0x100000000])).wellFormed .w64 = false := by decide

/-! ## Decoding: one written word for every command (30_encoding.md R64), and the illegal ones (97 section 3.8) -/

theorem test_decode_nop : decoded ⟨0x0000000000000000, []⟩ = some (.nop []) := by decide
theorem test_decode_seed : decoded ⟨0x0000000000000001, [0x3039]⟩ = some (.seed [12345]) := by decide
theorem test_decode_seedd : decoded ⟨0x0000000000000002, []⟩ = some (.seedd []) := by decide
theorem test_decode_seedq : decoded ⟨0x0000000000000003, [1, 2, 3, 4, 5, 6, 7, 8]⟩ =
    some (.seedq [1, 2, 3, 4, 5, 6, 7, 8]) := by decide
theorem test_decode_next : decoded ⟨0x0000000000000004, []⟩ = some (.next []) := by decide
theorem test_decode_discard : decoded ⟨0x0000000000000005, [1000]⟩ = some (.discard [0x3E8]) := by decide
theorem test_decode_jump : decoded ⟨0x0000000000000006, []⟩ = some (.jump []) := by decide
theorem test_decode_ljump : decoded ⟨0x0000000000000007, []⟩ = some (.ljump []) := by decide
theorem test_decode_ser : decoded ⟨0x0000000000000008, []⟩ = some (.ser []) := by decide
theorem test_decode_deser : decoded ⟨0x0000000000000009, [5, 6, 7, 8]⟩ = some (.deser [5, 6, 7, 8]) := by
  decide
theorem test_decode_cmpeq : decoded ⟨0x000000000000000A, [1, 2, 3, 4]⟩ = some (.cmpeq [1, 2, 3, 4]) := by
  decide
theorem test_decode_range : decoded ⟨0x000000000000000B, []⟩ = some (.range []) := by decide
theorem test_decode_illegal : ([0x0C, 0x7F, 0xFF, 0x0100, 0x0104, 0x010C, 0x0000000100000004,
    0x8000000000000004, 0xFFFFFFFFFFFFFFFF] : List Beat).all (fun h => (decoded ⟨h, []⟩).isNone) = true := by
  decide
theorem test_decodeTableWord : decodeTableWord 64 0x04 = some (.next []) ∧
    decodeTableWord 128 (0x05 + 7 * 2 ^ 64) = some (.discard [7]) ∧
    decodeTableWord 64 0x05 = some (.discard [0]) ∧ decodeTableWord 64 0x0C = none ∧
    decodeTableWord 64 0x09 = some (.deser [0, 0, 0, 0]) := by decide

/-! ## One step of each command -/

theorem test_reset : State.reset =
    e64 0xE220A8397B1DCDAF 0x6E789E6AA1B965F4 0x06C45D188009454F 0xF88BB8A8724C81EC := by decide +kernel
theorem test_reset32 : State.resetOf .w32 = e32 0x92CA2F0E 0x3CD6E3F3 0x1B147DCC 0x4C081DBF := by
  decide +kernel

/-- 97 section 3.7. -/
theorem test_nop : ran (e64 1 2 3 4) 0x00 [] = some ((e64 1 2 3 4).engine, [[0x0000]]) := by decide +kernel
theorem test_nop_length : ran (e32 1 2 3 4) 0x00 [0] = some ((e32 1 2 3 4).engine, [[0x0004]]) := by
  decide +kernel

/-- V1; 95 section 3.3 (the upper half of the seed is dropped on Engine32). -/
theorem test_seed64 : ran (e64 1 2 3 4) 0x01 [12345] = some (.engine64
    ⟨0x22118258A9D111A0, 0x346EDCE5F713F8ED, 0x1E9A57BC80E6721D, 0x2D160E7E5C3F42CA⟩, [[0x0100]]) := by
  decide +kernel
theorem test_seed32 : ran (e32 1 2 3 4) 0x01 [0x100003039] = some (.engine32
    ⟨0x479199B4, 0x30C2CBD5, 0x3B5FD909, 0x8EE55794⟩, [[0x0100]]) := by decide +kernel

/-- V7; 95 section 3.3. -/
theorem test_seedd : ran (e32 1 2 3 4) 0x02 [] = some (.engine32
    ⟨0x92CA2F0E, 0x3CD6E3F3, 0x1B147DCC, 0x4C081DBF⟩, [[0x0200]]) := by decide +kernel
theorem test_seedd_length : ran (e64 1 2 3 4) 0x02 [0] = some ((e64 1 2 3 4).engine, [[0x0204]]) := by
  decide +kernel

/-- 95 section 3.3. -/
theorem test_seedq64 : ran (e64 9 9 9 9) 0x03 [0xDEADBEEF, 0x01234567, 0x89ABCDEF, 0xFFFFFFFF, 0, 1,
    0x80000000, 0x7FFFFFFF, 0, 0, 0, 0, 0, 0, 0, 0] = some (.engine64
    ⟨0x01234567DEADBEEF, 0xFFFFFFFF89ABCDEF, 0x0000000100000000, 0x7FFFFFFF80000000⟩, [[0x0300]]) := by
  decide +kernel
theorem test_seedq32_domain : ran (e32 9 9 9 9) 0x03 [1, 2, 3, 4, 5, 6, 7, 0xFFFFFFFFFFFFFFFF] =
    some ((e32 9 9 9 9).engine, [[0x0302]]) := by decide +kernel

/-- 95 section 3.2. -/
theorem test_next64 : ran (e64 0x0123456789ABCDEF 0xFEDCBA9876543210 0x0F0F0F0F0F0F0F0F 0xAAAAAAAA55555555)
    0x04 [] = some (.engine64
    ⟨0x55555555AAAAAAAA, 0xF0F0F0F0F0F0F0F0, 0x7B1CA6C0E284C2E0, 0x2CE8AA8EC2064460⟩,
    [[0x0400, 0x0A12C5F92C01B4E7]]) := by decide +kernel
theorem test_next32 : ran (e32 0x01234567 0x89ABCDEF 0x0F0F0F0F 0xAAAA5555) 0x04 [] = some (.engine32
    ⟨0x2222DDDD, 0x87878787, 0x59B79468, 0x0CC5D118⟩, [[0x0400, 0xE7F0A3BC]]) := by decide +kernel

/-- 95 section 3.4, `n = 5`. -/
theorem test_discard64 : ran (e64 0x22118258A9D111A0 0x346EDCE5F713F8ED 0x1E9A57BC80E6721D 0x2D160E7E5C3F42CA)
    0x05 [5] = some (.engine64
    ⟨0xF2A57D478608A420, 0xC1F4BE6418016978, 0x5E1A05227F62F444, 0x62775246B21361B8⟩, [[0x0500]]) := by
  decide +kernel
theorem test_discard32 : ran (e32 0x479199B4 0x30C2CBD5 0x3B5FD909 0x8EE55794) 0x05 [6] = some (.engine32
    ⟨0xCD87DDC3, 0x67AF0800, 0x6AD70F0D, 0xE85946CC⟩, [[0x0500]]) := by decide +kernel

/-- 97 section 3.5. -/
theorem test_jump64 : ran (e64 1 2 3 4) 0x06 [] = some ((e64 1 2 3 4).engine,
    [[0x0600, 0x8C7A153956B5F3D1, 0x701F1A713401D85E, 0x6527F66A65469085, 0x8386B786C4408050]]) := by
  decide +kernel
theorem test_jump32 : ran (e32 1 2 3 4) 0x06 [] = some ((e32 1 2 3 4).engine,
    [[0x0600, 0xA9765206, 0x797AA168, 0x5B62E331, 0x02ABD971]]) := by decide +kernel
theorem test_ljump64 : ran (e64 1 2 3 4) 0x07 [] = some ((e64 1 2 3 4).engine,
    [[0x0700, 0x096A8EB71295A400, 0xDBF84991E50F4516, 0x534EE745810D2A0E, 0x31655CA1A2215BF1]]) := by
  decide +kernel
theorem test_ljump32 : ran (e32 1 2 3 4) 0x07 [] = some ((e32 1 2 3 4).engine,
    [[0x0700, 0x6014AF26, 0x7EB5A852, 0x399FBBA1, 0xBE5EBFCE]]) := by decide +kernel

/-- 97 section 3.6. -/
theorem test_ser32 : ran (e32 0xFFFFFFFF 0 0xFFFFFFFF 0) 0x08 [] = some ((e32 0xFFFFFFFF 0 0xFFFFFFFF 0).engine,
    [[0x0800, 0x00000000FFFFFFFF, 0, 0x00000000FFFFFFFF, 0]]) := by decide +kernel
theorem test_ser_length : ran (e64 1 2 3 4) 0x08 [0] = some ((e64 1 2 3 4).engine, [[0x0804]]) := by
  decide +kernel
theorem test_deser64 : ran (e64 1 2 3 4) 0x09 [5, 6, 7, 0x100000000] =
    some (.engine64 ⟨5, 6, 7, 0x100000000⟩, [[0x0900]]) := by decide +kernel
theorem test_deser32_format : ran (e32 1 2 3 4) 0x09 [5, 6, 7, 0x100000000] =
    some ((e32 1 2 3 4).engine, [[0x0901]]) := by decide +kernel

/-- 97 section 3.7: the last beat is not truncated. -/
theorem test_cmpeq32 : ran (e32 1 2 3 4) 0x0A [1, 2, 3, 0x100000004] =
    some ((e32 1 2 3 4).engine, [[0x0A00, 0]]) := by decide +kernel
theorem test_cmpeq64 : ran (e64 1 2 3 4) 0x0A [1, 2, 3, 4] =
    some ((e64 1 2 3 4).engine, [[0x0A00, 1]]) := by decide +kernel
theorem test_range64 : ran (e64 1 2 3 4) 0x0B [] =
    some ((e64 1 2 3 4).engine, [[0x0B00, 0, 0xFFFFFFFFFFFFFFFF]]) := by decide +kernel
theorem test_range32 : ran (e32 1 2 3 4) 0x0B [] =
    some ((e32 1 2 3 4).engine, [[0x0B00, 0, 0xFFFFFFFF]]) := by decide +kernel

/-- 97 section 3.8: a reserved bit on a DESER that is also short. -/
theorem test_illegal : ran (e64 1 2 3 4) 0x0109 [1, 2, 3] = some ((e64 1 2 3 4).engine, [[0x0903]]) ∧
    ran (e32 1 2 3 4) 0xFFFFFFFFFFFFFFFF [] = some ((e32 1 2 3 4).engine, [[0xFF03]]) := by decide +kernel

/-- 70_reset_and_hazards.md R190: a reset inside an unfinished packet. -/
theorem test_reset_event :
    after (step ((e32 1 2 3 4).withPort [.beat 0x09 false, .beat 1 false, .reset])) =
      some (e32 0x92CA2F0E 0x3CD6E3F3 0x1B147DCC 0x4C081DBF) := by decide +kernel

/-! ## Text and host sequences -/

/-- 45_serialization.md R142, the decimal text of V2's seeded state. -/
theorem test_text : textOfWords (⟨0x479199B4, 0x30C2CBD5, 0x3B5FD909, 0x8EE55794⟩ : Words 32) =
    "1200724404 818072533 996137225 2397394836".toList := by decide +kernel
theorem test_text_max : decimalText 0xFFFFFFFFFFFFFFFF = "18446744073709551615".toList ∧
    decimalText 0 = "0".toList := by decide +kernel

/-- 97 section 3.6, "More parses". -/
theorem test_parse_ok :
    parsed (parseWords 32 "  1\t2\n3\r\n4  trailing".toList) = some (⟨1, 2, 3, 4⟩, "  trailing".toList) ∧
    parsed (parseWords 32 "007 0 00 4294967295".toList) = some (⟨7, 0, 0, 4294967295⟩, []) ∧
    parsed (parseWords 64 "1 2 3 18446744073709551615".toList) = some (⟨1, 2, 3, 0xFFFFFFFFFFFFFFFF⟩, []) := by
  decide +kernel
theorem test_parse_fail :
    ∀ t ∈ ["1 2 3".toList, "".toList, "1 2 -3 4".toList, "1 2 +3 4".toList, "1 2 3x 4".toList,
      "1,2,3,4".toList, "0x10 2 3 4".toList, "1 2 3 4.0".toList, "1 2 3 4294967296".toList],
      parsed (parseWords 32 t) = none := by decide +kernel

/-- 96 P3, lines 1 to 3: SPAWN A -> B from the state after `SEED 12345`. -/
theorem test_spawn : (spawn
    [e64 0x22118258A9D111A0 0x346EDCE5F713F8ED 0x1E9A57BC80E6721D 0x2D160E7E5C3F42CA, e64 1 2 3 4] 0 1).map
      (·.engine) =
    [.engine64 ⟨0x22118258A9D111A0, 0x346EDCE5F713F8ED, 0x1E9A57BC80E6721D, 0x2D160E7E5C3F42CA⟩,
      .engine64 ⟨0xC447E65C62D994CF, 0xAF415ED201C9E97E, 0x620FB38CD6DD52F4, 0xE6BA5BE4E54B26C6⟩] := by
  decide +kernel

/-- 30_encoding.md R69, 70_reset_and_hazards.md R190: CONSTRUCT in the middle of a packet abandons its beats. -/
theorem test_construct :
    construct [(e32 1 2 3 4).withPort [.beat 9 false, .beat 1 false], e64 1 2 3 4] 0 =
      [e32 0x92CA2F0E 0x3CD6E3F3 0x1B147DCC 0x4C081DBF, e64 1 2 3 4] := by decide +kernel

/-- 42_seeding.md R113: construction from a seed sequence; the words of 95 section 3.3. -/
theorem test_constructSequence :
    (constructSequence [e32 9 9 9 9] 0 [1, 2, 3, 4, 5, 6, 7, 8]).map (·.engine) =
      [.engine32 ⟨1, 2, 3, 4⟩] := by decide +kernel

/-- 30_encoding.md R68: the forms of a line. -/
theorem test_assembler :
    parseLine "  A: DESER 1, 0x10, 3,4 ; comment".toList =
      some { target := some "A".toList, instr := some (.deser [1, 16, 3, 4]) } ∧
    parseLine "NEXT".toList = some { target := none, instr := some (.next []) } ∧
    parseLine "; only a comment".toList = some { target := none, instr := none } ∧
    parseLine "NXT".toList = none ∧
    responseLine .ok [1, 2] = "-> OK [1, 2]".toList := by decide +kernel

/-! ## Witnesses: values that meet the hypotheses of the statements, every clause at the edges of its range -/

/-- Two beats of an unfinished packet, a reset, and something after it; also no beat before the reset. -/
theorem witness_ResetAbandonsUnfinishedPacket :
    (∃ (s : State) (unfinished : List Beat) (rest : List PortEvent), unfinished.length = 2 ∧ rest ≠ [] ∧
      s.port = unfinished.map (fun v => PortEvent.beat v false) ++ PortEvent.reset :: rest) ∧
    ∃ (s : State) (rest : List PortEvent), s.port = ([] : List Beat).map (fun v => PortEvent.beat v false) ++
      PortEvent.reset :: rest :=
  ⟨⟨(e32 1 2 3 4).withPort [.beat 9 false, .beat 1 false, .reset, .beat 4 true], [9, 1], [.beat 4 true],
    by decide, by decide, rfl⟩, ⟨(e64 1 2 3 4).withPort [.reset], [], rfl⟩⟩

/-- JUMP cut short after its header and first data beat: what the statement speaks of does happen. -/
theorem witness_ResetCutsCommandAndResponse :
    after (step ((e32 1 2 3 4).withPort [.beat 6 true, .resetDuring 2, .beat 4 true])) = some
      { engine := .engine32 ⟨0x92CA2F0E, 0x3CD6E3F3, 0x1B147DCC, 0x4C081DBF⟩
        port := [.beat 4 true], responses := [[0x0600, 0xA9765206]] } ∧
    after (step ((e32 1 2 3 4).withPort [.beat 6 true, .resetDuring 0])) =
      some (e32 0x92CA2F0E 0x3CD6E3F3 0x1B147DCC 0x4C081DBF) := by decide +kernel

theorem witness_StepExecutesDecodedCommand : ∃ (s : State) (p : CommandPacket) (i : Instr)
    (rest : List PortEvent), s.port = packetEvents p ++ rest ∧ interruption rest = none ∧ decode p = .ok i :=
  ⟨(e64 1 2 3 4).withPort [.beat 5 false, .beat 7 true, .beat 4 true], ⟨5, [7]⟩, .discard [7],
    [.beat 4 true], rfl, rfl, rfl⟩

theorem witness_TableWordRunsNext : ∃ (nbits w : Nat) (i : Instr), decodeTableWord nbits w = some i :=
  ⟨64, 9, .deser [0, 0, 0, 0], by decide⟩

theorem witness_UnfinishedPacketChangesNothing : ∃ (s : State) (beats : List Beat), beats ≠ [] ∧
    s.port = beats.map (fun v => PortEvent.beat v false) :=
  ⟨(e64 1 2 3 4).withPort [.beat 9 false, .beat 1 false], [9, 1], by decide, rfl⟩

theorem witness_OneResponsePerCommandPacket : ∃ (s : State) (p : CommandPacket) (rest : List PortEvent),
    s.port = packetEvents p ++ rest ∧ interruption rest = none :=
  ⟨(e64 1 2 3 4).withPort [.beat 4 true, .reset], ⟨4, []⟩, [.reset], rfl, rfl⟩

/-- The first unassigned header, a reserved bit over an assigned opcode, and the largest header. -/
theorem witness_UnassignedHeaderIsIllegalCommand : ∀ h ∈ ([0x0C, 0x104, 0xFFFFFFFFFFFFFFFF] : List Beat),
    ∃ (s : State) (p : CommandPacket) (rest : List PortEvent), p.header = h ∧
      s.port = packetEvents p ++ rest ∧ interruption rest = none ∧ 0x0B < p.header.toNat :=
  fun h hh => ⟨(e32 1 2 3 4).withPort (packetEvents ⟨h, [1]⟩), ⟨h, [1]⟩, [], rfl, by simp [State.withPort],
    rfl, by
      simp only [List.mem_cons, List.not_mem_nil, or_false] at hh
      obtain rfl | rfl | rfl := hh <;> decide⟩

/-- One beat too few and one too many, for each count the statement names. -/
theorem witness_WrongPayloadLengthIsLengthError :
    ([0] : List Beat).length ≠ 0 ∧ ([] : List Beat).length ≠ 1 ∧ ([1, 2] : List Beat).length ≠ 1 ∧
      ([1, 2, 3] : List Beat).length ≠ 4 ∧ ([1, 2, 3, 4, 5] : List Beat).length ≠ 4 ∧
      (List.replicate 15 (0 : Beat)).length ≠ (e64 1 2 3 4).engine.width.nseq ∧
      (List.replicate 9 (0 : Beat)).length ≠ (e32 1 2 3 4).engine.width.nseq := by decide

theorem witness_ChecksDecideTheStatus :
    (Instr.deser [1, 2, 3, 0x100000000]).wellFormed (e32 1 2 3 4).engine.width = false ∧
    (Instr.seedq [1]).wellFormed (e64 1 2 3 4).engine.width = false ∧
    (Instr.next [0]).wellFormed (e64 1 2 3 4).engine.width = false ∧
    (Instr.deser [1, 2, 3, 0xFFFFFFFF]).wellFormed (e32 1 2 3 4).engine.width = true := by decide

theorem witness_RotationMovesBits : (0 < 1 ∧ 1 < 64) ∧ (0 < 63 ∧ 63 < 64) ∧ (0 < 1 ∧ 1 < 2) := by decide

/-- For NextAnswersOutputAndSteps, DiscardStepsByItsCount, SeedExpandsIntoEngine, SeeddRestoresResetRegisters,
JumpAnswersTableXor, LongJumpAnswersTableXor, SerAnswersWordsInOrder, CmpeqAnswersEquality, RangeAnswersBounds
and NopOnlyAnswers, whose hypotheses are the engine's width, or that the payload is too short or too long: there
is an engine of each width, and such a payload for 0, 1 and 4 beats. -/
theorem witness_engines : (∃ (s t : State) (w : Words 64) (v : Words 32),
    s.engine = .engine64 w ∧ t.engine = .engine32 v) ∧
    ([0] : List Beat).length ≠ 0 ∧ ([] : List Beat).length ≠ 1 ∧ ([1, 2] : List Beat).length ≠ 1 ∧
    ([1, 2, 3] : List Beat).length ≠ 4 ∧ ([1, 2, 3, 4, 5] : List Beat).length ≠ 4 :=
  ⟨⟨e64 1 2 3 4, e32 1 2 3 4, ⟨1, 2, 3, 4⟩, ⟨1, 2, 3, 4⟩, rfl, rfl⟩, by decide⟩

/-- Engine64: sixteen words; one too few, one too many, and the first beat that is no 32-bit word. Engine32:
the same with eight. -/
theorem witness_SeedqPacksOrFails :
    (∃ (s : State) (w : Words 64), s.engine = .engine64 w ∧
      (List.replicate 16 (0xFFFFFFFF : BitVec 32)).length = 16 ∧
      (List.replicate 15 (0 : Beat)).length ≠ 16 ∧ (List.replicate 17 (0 : Beat)).length ≠ 16 ∧
      ∃ b ∈ List.replicate 15 (0 : Beat) ++ [0x100000000], 2 ^ 32 ≤ b.toNat) ∧
    ∃ (s : State) (w : Words 32), s.engine = .engine32 w ∧
      (List.replicate 8 (0xFFFFFFFF : BitVec 32)).length = 8 ∧
      (List.replicate 7 (0 : Beat)).length ≠ 8 ∧ (List.replicate 9 (0 : Beat)).length ≠ 8 ∧
      ∃ b ∈ List.replicate 7 (0 : Beat) ++ [0x100000000], 2 ^ 32 ≤ b.toNat :=
  ⟨⟨e64 9 9 9 9, ⟨9, 9, 9, 9⟩, rfl, by decide, by decide, by decide, 0x100000000, by simp, by decide⟩,
    ⟨e32 9 9 9 9, ⟨9, 9, 9, 9⟩, rfl, by decide, by decide, by decide, 0x100000000, by simp, by decide⟩⟩

/-- The constants of R91, and the edges of what U2 allows for the shifts. -/
theorem witness_SeedingNeverGivesZeroState : LegalMixer params64 ∧ LegalMixer params32 ∧
    LegalMixer { params32 with x1 := 1, x2 := 31, x3 := 1, gamma := 1, m1 := 1, m2 := 1 } := by
  unfold LegalMixer; decide

/-- Two engines of one width that hold different words, and each loading command. -/
theorem witness_LoadingForgetsOldRegisters :
    ∀ i ∈ [Instr.seed [7], .seedd [], .seedq [1, 2, 3, 4, 5, 6, 7, 8], .deser [1, 2, 3, 0xFFFFFFFF]],
      (e32 1 2 3 4).engine.width = (e32 5 6 7 8).engine.width ∧
      (i.command = .seed ∨ i.command = .seedd ∨ i.command = .seedq ∨ i.command = .deser) ∧
      i.wellFormed (e32 1 2 3 4).engine.width = true := by decide

theorem witness_DerivedEngineDiffersFromSource :
    (e64 0 0 0 1).engine.isZero = false ∧ (e32 0x80000000 0 0 0).engine.isZero = false := by decide

/-- DESER: one beat too few, one too many, and the first value that is no Engine32 word. -/
theorem witness_DeserLoadsAllOrFails : ([1, 2, 3] : List Beat).length ≠ 4 ∧
    ([1, 2, 3, 4, 5] : List Beat).length ≠ 4 ∧ ∃ b ∈ ([1, 2, 3, 0x100000000] : List Beat), 2 ^ 32 ≤ b.toNat :=
  ⟨by decide, by decide, 0x100000000, by simp, by decide⟩

theorem witness_DeserOfSerCopiesEngine :
    (e64 1 2 3 4).engine.width = (e64 5 6 7 8).engine.width ∧
      (e32 1 2 3 4).engine.width = (e32 5 6 7 8).engine.width := by decide

theorem witness_TextIsShortestNumerals : 0 < 2 ^ 64 ∧ 18446744073709551615 < 2 ^ 64 := by decide

/-- Nothing after the text, and a separator after it. -/
theorem witness_ParseOfTextIsIdentity :
    (∀ c, ([] : List Char).head? = some c → isSpaceChar c = true) ∧
      ∀ c, " x".toList.head? = some c → isSpaceChar c = true :=
  ⟨by simp, by simp; decide⟩

/-- No token, three tokens, four valid ones at the top of the range, four with the first value beyond it, four
with one that is no numeral. -/
theorem witness_ParseReadsFourTokens :
    SeparatedTokens [] ∧ " \n".toList.all isSpaceChar = true ∧
    SeparatedTokens [([], ['1']), ([' '], ['2']), ([' '], ['3'])] ∧
    (∃ t, SeparatedTokens t ∧ t.length = 4 ∧
      ∀ x ∈ t, x.2.all isDigitChar = true ∧ decimalValue x.2 < 2 ^ 32) ∧
    (∃ t, SeparatedTokens t ∧ t.length = 4 ∧ ∃ x ∈ t, 2 ^ 32 ≤ decimalValue x.2) ∧
    (∃ t, SeparatedTokens t ∧ t.length = 4 ∧ ∃ x ∈ t, x.2.all isDigitChar = false) := by
  unfold SeparatedTokens
  exact ⟨by decide, by decide, by decide,
    ⟨[([], ['0', '7']), ([' '], ['0']), (['\t', ' '], ['3']), ([' '], "4294967295".toList)], by decide +kernel⟩,
    ⟨[([], ['1']), ([' '], ['2']), ([' '], ['3']), ([' '], "4294967296".toList)], by decide +kernel⟩,
    ⟨[([], ['1']), ([' '], ['2']), ([' '], ['-', '3']), ([' '], ['4'])], by decide +kernel⟩⟩

theorem witness_AssemblerLineReadsBack : ∃ name : List Char, name ≠ [] ∧
    ∀ c ∈ name, isSpaceChar c = false ∧ c ≠ ':' ∧ c ≠ ';' :=
  ⟨['A'], by simp, by simp; decide⟩

/-- For ReadOnlyCommandsKeepRegisters and ReadOnlyCommandsAnswerTheSameTwice. -/
theorem witness_ReadOnlyCommands :
    ∀ i ∈ [Instr.nop [], .jump [], .ljump [0], .ser [], .cmpeq [1, 2, 3, 4], .range []],
      i.command = .nop ∨ i.command = .jump ∨ i.command = .ljump ∨ i.command = .ser ∨
        i.command = .cmpeq ∨ i.command = .range := by decide

theorem witness_WidthNeverChanges : ∃ s t : State, s ≠ t ∧ step s = .next t :=
  ⟨(e32 1 2 3 4).withPort [.beat 0 true], { (e32 1 2 3 4) with responses := [[0]] }, by decide,
    next_of_after (by decide +kernel)⟩

/-- DESER of four zero words, and SEEDQ of sixteen words whose first eight are zero. -/
theorem witness_OnlyLoadingZerosGivesZeroState :
    (∃ s t : State, step s = .next t ∧ s.engine.isZero = false ∧ t.engine.isZero = true ∧
      s.port = packetEvents ⟨9, [0, 0, 0, 0]⟩) ∧
    ∃ s t : State, step s = .next t ∧ s.engine.isZero = false ∧ t.engine.isZero = true ∧
      s.port = packetEvents ⟨3, List.replicate 8 0 ++ List.replicate 8 0xFFFFFFFF⟩ :=
  ⟨⟨(e32 1 2 3 4).withPort (packetEvents ⟨9, [0, 0, 0, 0]⟩),
      { (e32 0 0 0 0) with responses := [[0x0900]] }, next_of_after (by decide +kernel), by decide, by decide,
      rfl⟩,
    ⟨(e64 1 2 3 4).withPort (packetEvents ⟨3, List.replicate 8 0 ++ List.replicate 8 0xFFFFFFFF⟩),
      { (e64 0 0 0 0) with responses := [[0x0300]] }, next_of_after (by decide +kernel), by decide, by decide,
      rfl⟩⟩

theorem witness_ZeroStateIsFixed :
    (e64 0 0 0 0).engine.isZero = true ∧ (e32 0 0 0 0).engine.isZero = true := by decide

/-- A state that has answered: a whole response, an error and a first part of a response (log 7). -/
theorem witness_StepKeepsResponsesWellFormed : ∃ s t : State, s.responses.length = 3 ∧
    s.ResponsesWellFormed ∧ step s = .next t := by
  refine ⟨{ (e32 1 2 3 4) with responses := [[0x0400, 0xFFFFFFFF], [0x0104], [0x0600]] }, { (e32 1 2 3 4) with
    responses := [[0x0400, 0xFFFFFFFF], [0x0104], [0x0600]] }, rfl, ?_, next_of_after (by decide +kernel)⟩
  intro r hr
  simp only [List.mem_cons, List.not_mem_nil, or_false] at hr
  obtain rfl | rfl | rfl := hr
  · refine ⟨by simp, _, ⟨.ok, 0x04, [0xFFFFFFFF], rfl, by simp, fun _ => ⟨⟨0x04, .next, 1⟩, ?_⟩, ?_⟩,
      List.prefix_refl _⟩
    · decide
    · simp; decide
  · refine ⟨by simp, _, ⟨.lengthError, 0x01, [], rfl, by simp, by simp, by simp⟩, List.prefix_refl _⟩
  · refine ⟨by simp, [0x0600, 1, 2, 3, 4], ⟨.ok, 0x06, [1, 2, 3, 4], rfl, by simp,
      fun _ => ⟨⟨0x06, .jump, 4⟩, ?_⟩, ?_⟩, [1, 2, 3, 4], rfl⟩
    · decide
    · simp; decide

/-- For SendingTouchesOneInstance, DifferentInstancesCommute, SpawnLoadsDerivedEngine, CopyAndEqAgree and
TextCarriesEngineAcross: two instances at different places, of one width, and a text that does not parse. -/
theorem witness_Systems : ∃ (sys : System) (a b : Nat) (sa sb : State), a ≠ b ∧ sys[a]? = some sa ∧
    sys[b]? = some sb ∧ sa.engine.width = sb.engine.width ∧
    parseWords sb.engine.width.bits [] = .error .formatError :=
  ⟨[e64 1 2 3 4, e64 5 6 7 8], 0, 1, e64 1 2 3 4, e64 5 6 7 8, by decide, rfl, rfl, rfl,
    by simp [parseWords, readToken, tokenValue]⟩

/-- For ConstructGivesDefaultEngine, ConstructThenLoadIgnoresReset: an instance in the middle of a packet, and
commands that pass their checks. -/
theorem witness_Construct : ∃ (sys : System) (k : Nat) (s : State) (beats : List Beat), sys[k]? = some s ∧
    beats ≠ [] ∧ s.port = beats.map (fun v => PortEvent.beat v false) ∧ 0 ≠ k ∧
    (Instr.deser [1, 2, 3, 0xFFFFFFFF]).wellFormed s.engine.width = true ∧
    (Instr.seedq (List.replicate 8 0xFFFFFFFF)).wellFormed s.engine.width = true ∧
    (Instr.seed [7]).wellFormed s.engine.width = true ∧ (Instr.seedd []).wellFormed s.engine.width = true :=
  ⟨[e64 1 2 3 4, (e32 1 2 3 4).withPort [.beat 9 false, .beat 1 false]], 1,
    (e32 1 2 3 4).withPort [.beat 9 false, .beat 1 false], [9, 1], rfl, by decide, rfl, by decide, by decide,
    by decide, by decide, by decide⟩

end Sys2Proof.Tests
end

section
/-! PROOFS of the statements about 00_scope.md: the rotation (R8), and the width of an instance (R4). -/

namespace Sys2Proof.Machine

/-! ## Rotation -/

/-- Below bit `k` the left half of a rotation is empty; from bit `k` on the right half is. -/
theorem shlW_and_shrW_eq_zero {n k : Nat} (x : BitVec n) : shlW x k &&& shrW x (n - k) = 0 := by
  apply BitVec.eq_of_getLsbD_eq
  intro i hi
  rcases lt_or_ge i k with h | h
  · simp [shlW, h]
  · have hx : x.getLsbD (n - k + i) = false := BitVec.getLsbD_of_ge x _ (by omega)
    simp [shrW, hx]

/-- With no bit in common, `|` and `^` agree. -/
theorem or_eq_xor_of_and_eq_zero {n : Nat} {a b : BitVec n} (h : a &&& b = 0) : a ||| b = a ^^^ b := by
  apply BitVec.eq_of_getLsbD_eq
  intro i _
  have hi : (a.getLsbD i && b.getLsbD i) = false := by
    simpa using congrArg (·.getLsbD i) h
  have hbool : ∀ p q : Bool, (p && q) = false → (p || q) = (p ^^ q) := by decide
  simpa using hbool _ _ hi

/-- Where a rotation puts bit `i`: at `i + k` while that is inside the word, else at `i + k - n`. -/
theorem getLsbD_rotlW_add_mod {n k i : Nat} (x : BitVec n) (hk : k < n) (hi : i < n) :
    (rotlW x k).getLsbD ((i + k) % n) = x.getLsbD i := by
  rw [rotlW_eq_rotateLeft x k hk, BitVec.getLsbD_rotateLeft_of_le hk]
  rcases lt_or_ge (i + k) n with h | h
  · have hge : ¬ i + k < k := by omega
    simp [Nat.mod_eq_of_lt h, h, hge]
  · have hmod : (i + k) % n = i + k - n := by
      rw [Nat.mod_eq_sub_mod h, Nat.mod_eq_of_lt (by omega)]
    have hlt : i + k - n < k := by omega
    have hback : n - k + (i + k - n) = i := by omega
    simp [hmod, hlt, hback]

/-- At `k = 0` the right half is shifted out whole. -/
@[simp] theorem rotlW_zero {n : Nat} (x : BitVec n) : rotlW x 0 = x := by
  simp [rotlW, shlW, shrW, BitVec.ushiftRight_eq_zero]

/-- Settles O14: the bit positions from the two sides of the wrap, the agreement of `|`, `^` and `+` from the
halves having no bit in common. -/
theorem rotationMovesBits : Obligations.RotationMovesBits := by
  intro n k x
  have hdisj : shlW x k &&& shrW x (n - k) = 0 := shlW_and_shrW_eq_zero x
  refine ⟨fun _ hk => ⟨fun i hi => getLsbD_rotlW_add_mod x hk hi, hdisj, rfl, ?_, ?_⟩, rotlW_zero x⟩
  · exact or_eq_xor_of_and_eq_zero hdisj
  · exact (BitVec.add_eq_or_of_and_eq_zero _ _ hdisj).symm

/-! ## Width -/

/-- Whatever a command leaves in the registers, it leaves in registers of the same width. -/
theorem exec_keeps_width {i : Instr} {s t : State} (h : exec i s = .next t) :
    t.engine.width = s.engine.width := by
  obtain ⟨e, st, data, hexec, hregs⟩ := exec_cases i s
  obtain rfl : s.answered e _ = t := by simpa [hexec] using h
  rw [State.answered_engine]
  obtain ⟨rfl, -⟩ | ⟨-, ⟨rfl, -⟩ | ⟨-, rfl⟩ | ⟨n, -, rfl⟩ | ⟨x, -, rfl⟩ | ⟨-, rfl⟩ | ⟨q, -, -, rfl⟩ |
    ⟨v, -, -, rfl⟩⟩ := hregs
  case inl | inr.inl => rfl
  all_goals simp only [Engine.width_stepped, Engine.width_seeded, Engine.width_seededDefault,
    Engine.width_packed, Engine.width_loaded]

/-- A packet is a command executed or an error answered; an error keeps the registers. -/
theorem runPacket_keeps_width {p : CommandPacket} {s t : State} (h : runPacket p s = .next t) :
    t.engine.width = s.engine.width := by
  obtain ⟨i, -, hrun⟩ | ⟨-, hrun⟩ := runPacket_cases p s
  · exact exec_keeps_width (hrun.symm.trans h)
  · obtain rfl : s.answered s.engine _ = t := by simpa [hrun] using h
    rfl

/-- Settles O43: idle keeps the registers, a reset (also one that cuts a command short) constructs registers
of the width as built, and a packet keeps the width. -/
theorem widthNeverChanges : Obligations.WidthNeverChanges := by
  intro s t h
  obtain ⟨-, hs⟩ | ⟨rest, -, hs⟩ | ⟨p, rest, -, -, hs⟩ | ⟨p, rest, sent, rest', u, -, -, -, hs⟩ :=
    step_cases s <;> rw [hs] at h
  case inr.inr.inl =>
    simpa using runPacket_keeps_width h
  all_goals
    cases h
    simp

end Sys2Proof.Machine
end

section
/-! PROOFS of the statements about 10_state.md: reset values (R29), the access table (R21), the all-zero state
(R23), and instances that share nothing (R22). -/

namespace Sys2Proof.Machine

/-! ## Reset -/

/-- Settles O1: the default seed expanded with the constants of each width. -/
theorem resetRegistersHoldDefaultSeedState : Obligations.ResetRegistersHoldDefaultSeedState :=
  ⟨by decide +kernel, by decide +kernel, fun _ => rfl⟩

/-! ## The access table -/

/-- Settles O41: every case in which a command writes the registers names a command of another row. -/
theorem readOnlyCommandsKeepRegisters : Obligations.ReadOnlyCommandsKeepRegisters := by
  intro i s hi
  obtain ⟨e, st, data, hexec, hregs⟩ := exec_cases i s
  have he : e = s.engine := by
    obtain ⟨he, -⟩ | ⟨-, ⟨he, -⟩ | hwriter⟩ := hregs
    · exact he
    · exact he
    · obtain ⟨rfl, -⟩ | ⟨n, rfl, -⟩ | ⟨x, rfl, -⟩ | ⟨rfl, -⟩ | ⟨q, rfl, -⟩ | ⟨v, rfl, -⟩ := hwriter <;>
        simp [Instr.command] at hi
  subst he
  exact ⟨_, hexec⟩

/-! ## The answers of NEXT, DISCARD, JUMP and LJUMP to a payload of their format -/

theorem exec_next_nil (s : State) :
    exec (.next []) s = .next (s.answered (s.engine.stepped 1) [0x0400, s.engine.output]) := rfl

theorem exec_discard_singleton (n : Beat) (s : State) :
    exec (.discard [n]) s = .next (s.answered (s.engine.stepped n.toNat) [0x0500]) := rfl

theorem exec_jump_nil (s : State) :
    exec (.jump []) s = .next (s.answered s.engine (0x0600 :: s.engine.jumped.words)) := rfl

theorem exec_ljump_nil (s : State) :
    exec (.ljump []) s = .next (s.answered s.engine (0x0700 :: s.engine.longJumped.words)) := rfl

/-! ## Several instances -/

/-- Sending is the update of one position by the transaction there. -/
theorem sendTo_eq_modify (sys : System) (k : Nat) (p : CommandPacket) :
    sendTo sys k p = sys.modify k fun s => (s.transact p).1 := by
  rw [List.modify_eq_set_getElem?, sendTo]
  cases sys[k]? <;> rfl

/-- The response depends on the instance at the position alone. -/
theorem responseOf_congr {sys sys' : System} {k : Nat} (p : CommandPacket) (h : sys[k]? = sys'[k]?) :
    responseOf sys k p = responseOf sys' k p := by
  simp only [responseOf, h]

/-- Settles O48. -/
theorem sendingTouchesOneInstance : Obligations.SendingTouchesOneInstance := by
  intro sys k p
  refine ⟨?_, fun j hj => sendTo_of_ne sys p hj⟩
  rw [sendTo_eq_modify, List.length_modify]

/-- Settles O49: updates of two positions commute, and a send to one leaves what the other answers from. -/
theorem differentInstancesCommute : Obligations.DifferentInstancesCommute := by
  intro sys j k p q hjk
  constructor
  · simp only [sendTo_eq_modify]
    exact List.modify_modify_ne _ _ sys hjk
  · exact responseOf_congr q (sendTo_of_ne sys p hjk.symm)

/-! ## The all-zero state is fixed -/

theorem eq_zeroWords_iff {n : Nat} {s : Words n} :
    s = zeroWords n ↔ s.s0 = 0 ∧ s.s1 = 0 ∧ s.s2 = 0 ∧ s.s3 = 0 := by
  cases s
  simp [zeroWords]

@[simp] theorem Engine.isZero_engine64 (w : Words 64) :
    (Engine.engine64 w).isZero = true ↔ w = zeroWords 64 := by simp [Engine.isZero]

@[simp] theorem Engine.isZero_engine32 (w : Words 32) :
    (Engine.engine32 w).isZero = true ↔ w = zeroWords 32 := by simp [Engine.isZero]

@[simp] theorem xorWords_zeroWords {n : Nat} (s : Words n) : xorWords s (zeroWords n) = s := by
  simp [xorWords, zeroWords]

@[simp] theorem stepWords_zeroWords {n : Nat} (p : Params n) :
    stepWords p (zeroWords n) = zeroWords n := by
  simp [stepWords_closed, zeroWords]

@[simp] theorem stepTimes_zeroWords {n : Nat} (p : Params n) (k : Nat) :
    stepTimes p k (zeroWords n) = zeroWords n := by
  rw [stepTimes_eq_iterate, Function.iterate_fixed (stepWords_zeroWords p)]

@[simp] theorem outWord_zeroWords {n : Nat} (p : Params n) : outWord p (zeroWords n) = 0 := by
  simp [outWord, zeroWords]

/-- Whatever the bits of the table, the loop adds zero states only. -/
theorem advanceLoop_zeroWords {n : Nat} (p : Params n) (bits : List Bool) (acc : Words n) :
    advanceLoop p bits acc (zeroWords n) = acc := by
  induction bits generalizing acc with
  | nil => rfl
  | cons b bits ih => simp [advanceLoop, ih]

@[simp] theorem advanceWords_zeroWords {n : Nat} (p : Params n) (T : Words n) :
    advanceWords p T (zeroWords n) = zeroWords n := advanceLoop_zeroWords p _ _

theorem Engine.stepped_of_isZero {e : Engine} (h : e.isZero = true) (k : Nat) : e.stepped k = e := by
  cases e <;> simp_all [Engine.stepped]

theorem Engine.jumped_of_isZero {e : Engine} (h : e.isZero = true) : e.jumped = e := by
  cases e <;> simp_all [Engine.jumped]

theorem Engine.longJumped_of_isZero {e : Engine} (h : e.isZero = true) : e.longJumped = e := by
  cases e <;> simp_all [Engine.longJumped]

theorem Engine.output_of_isZero {e : Engine} (h : e.isZero = true) : e.output = 0 := by
  cases e <;> simp_all [Engine.output, zext64]

theorem Engine.words_of_isZero {e : Engine} (h : e.isZero = true) : e.words = [0, 0, 0, 0] := by
  cases e <;> simp_all [Engine.words, muxBeats_eq, zext64, zeroWords]

/-- Settles O45: on a zero engine the update and both jumps are the identity, and the output is 0. -/
theorem zeroStateIsFixed : Obligations.ZeroStateIsFixed := by
  intro s hz
  refine ⟨?_, fun n => ?_, ?_, ?_⟩
  · rw [exec_next_nil, Engine.stepped_of_isZero hz, Engine.output_of_isZero hz]
  · rw [exec_discard_singleton, Engine.stepped_of_isZero hz]
  · rw [exec_jump_nil, Engine.jumped_of_isZero hz, Engine.words_of_isZero hz]
  · rw [exec_ljump_nil, Engine.longJumped_of_isZero hz, Engine.words_of_isZero hz]

/-! ## The update leads to zero from zero alone -/

/-- A rotation loses no bit. -/
theorem rotlW_eq_zero_iff {n k : Nat} {x : BitVec n} (hk : k < n) : rotlW x k = 0 ↔ x = 0 := by
  refine ⟨fun h => BitVec.eq_of_getLsbD_eq fun i hi => ?_, by rintro rfl; exact rotlW_zero_word k⟩
  rw [← getLsbD_rotlW_add_mod x hk hi, h]
  simp

/-- A word that a proper left shift leaves as it is has no lowest set bit. -/
theorem eq_zero_of_eq_shlW {n k : Nat} {x : BitVec n} (hk : 0 < k) (h : x = shlW x k) : x = 0 := by
  have hbit : ∀ i, x.getLsbD i = false := by
    intro i
    induction i using Nat.strong_induction_on with
    | _ i ih =>
      rw [h, shlW, BitVec.getLsbD_shiftLeft]
      rcases lt_or_ge i k with hi | hi
      · simp [hi]
      · simp [ih (i - k) (by omega)]
  exact BitVec.eq_of_getLsbD_eq fun i _ => by simp [hbit i]

/-- `s1 = s3` from the rotated word and `s0 = 0` from the first, so `s1 = s2`, which the shifted word makes a
fixed point of the shift. -/
theorem stepWords_eq_zeroWords_iff {n : Nat} {p : Params n} (hA : 0 < p.shiftA) (hB : p.rotB < n)
    {s : Words n} : stepWords p s = zeroWords n ↔ s = zeroWords n := by
  refine ⟨fun h => ?_, by rintro rfl; exact stepWords_zeroWords p⟩
  obtain ⟨s0, s1, s2, s3⟩ := s
  simp only [stepWords_closed, eq_zeroWords_iff, rotlW_eq_zero_iff hB] at h ⊢
  obtain ⟨h0, h1, h2, h3⟩ := h
  obtain rfl : s1 = s3 := BitVec.xor_eq_zero_iff.1 h3
  obtain rfl : s0 = 0 := by simpa [BitVec.xor_assoc] using h0
  obtain rfl : s1 = s2 := BitVec.xor_eq_zero_iff.1 (by simpa using h1)
  have hs1 : s1 = 0 := eq_zero_of_eq_shlW hA (BitVec.xor_eq_zero_iff.1 (by simpa using h2))
  exact ⟨rfl, hs1, hs1, hs1⟩

theorem stepTimes_eq_zeroWords_iff {n : Nat} {p : Params n} (hA : 0 < p.shiftA) (hB : p.rotB < n)
    (k : Nat) {s : Words n} : stepTimes p k s = zeroWords n ↔ s = zeroWords n := by
  induction k generalizing s with
  | zero => rfl
  | succ k ih => rw [stepTimes_succ, ih, stepWords_eq_zeroWords_iff hA hB]

@[simp] theorem Engine.isZero_stepped (k : Nat) (e : Engine) : (e.stepped k).isZero = e.isZero := by
  rw [Bool.eq_iff_iff]
  cases e with
  | engine64 w =>
    simpa [Engine.stepped] using stepTimes_eq_zeroWords_iff (p := params64) (by decide) (by decide) k
  | engine32 w =>
    simpa [Engine.stepped] using stepTimes_eq_zeroWords_iff (p := params32) (by decide) (by decide) k

/-! ## No seed expands to zero -/

/-- A word equal to a proper right shift of itself is zero, since the shift makes any other smaller. -/
theorem xor_shrW_eq_zero_iff {n k : Nat} {z : BitVec n} (hk : 0 < k) : z ^^^ shrW z k = 0 ↔ z = 0 := by
  refine ⟨fun h => ?_, by rintro rfl; simp [shrW]⟩
  have hfix : z.toNat = z.toNat / 2 ^ k := by
    conv_lhs => rw [BitVec.xor_eq_zero_iff.1 h]
    simp [shrW, Nat.shiftRight_eq_div_pow]
  have hz : z.toNat = 0 := by
    by_contra hne
    have := Nat.div_lt_self (Nat.pos_of_ne_zero hne) (Nat.one_lt_two_pow hk.ne')
    omega
  exact BitVec.eq_of_toNat_eq (by simpa using hz)

/-- An odd factor is prime to `2^n`. -/
theorem mul_odd_eq_zero_iff {n : Nat} {z m : BitVec n} (hm : m.toNat % 2 = 1) : z * m = 0 ↔ z = 0 := by
  refine ⟨fun h => ?_, by rintro rfl; simp⟩
  have hdvd : 2 ^ n ∣ z.toNat * m.toNat :=
    Nat.dvd_of_mod_eq_zero (by simpa using congrArg BitVec.toNat h)
  have hcop : Nat.Coprime (2 ^ n) m.toNat :=
    ((Nat.coprime_two_left (n := m.toNat)).2 (Nat.odd_iff.2 hm)).pow_left n
  have hz : z.toNat = 0 := Nat.eq_zero_of_dvd_of_lt (hcop.dvd_of_dvd_mul_right hdvd) z.isLt
  exact BitVec.eq_of_toNat_eq (by simpa using hz)

/-- Each round of the mixer keeps a word nonzero. -/
theorem mixWord_eq_zero_iff {n : Nat} {p : Params n} (hp : LegalMixer p) {z : BitVec n} :
    mixWord p z = 0 ↔ z = 0 := by
  obtain ⟨-, hm1, hm2, ⟨hx1, -⟩, ⟨hx2, -⟩, ⟨hx3, -⟩⟩ := hp
  simp only [mixWord, xor_shrW_eq_zero_iff hx1, xor_shrW_eq_zero_iff hx2, xor_shrW_eq_zero_iff hx3,
    mul_odd_eq_zero_iff hm1, mul_odd_eq_zero_iff hm2]

theorem legalMixer_params64 : LegalMixer params64 := by unfold LegalMixer; decide

theorem legalMixer_params32 : LegalMixer params32 := by unfold LegalMixer; decide

/-- Two accumulators in a row differ by the odd increment, so they are not both zero. -/
theorem expandSeed_ne_zeroWords {n : Nat} {p : Params n} (hp : LegalMixer p) (seed : BitVec n) :
    expandSeed p seed ≠ zeroWords n := by
  intro h
  simp only [expandSeed, eq_zeroWords_iff, mixWord_eq_zero_iff hp] at h
  obtain ⟨h0, h1, -⟩ := h
  have hgamma : p.gamma = 0 := by simpa [h0] using h1
  obtain ⟨hodd, -⟩ := hp
  simp [hgamma] at hodd

@[simp] theorem Engine.isZero_construct (w : Width) : (Engine.construct w).isZero = false := by
  rw [Bool.eq_false_iff]
  cases w with
  | w64 => simpa [Engine.construct] using expandSeed_ne_zeroWords legalMixer_params64 _
  | w32 => simpa [Engine.construct] using expandSeed_ne_zeroWords legalMixer_params32 _

@[simp] theorem Engine.isZero_seeded (x : Beat) (e : Engine) : (e.seeded x).isZero = false := by
  rw [Bool.eq_false_iff]
  cases e with
  | engine64 w => simpa [Engine.seeded] using expandSeed_ne_zeroWords legalMixer_params64 _
  | engine32 w => simpa [Engine.seeded] using expandSeed_ne_zeroWords legalMixer_params32 _

/-- SEEDD loads what reset loads (10_state.md R29). -/
theorem Engine.seededDefault_eq_construct (e : Engine) : e.seededDefault = Engine.construct e.width := by
  cases e <;> rfl

/-! ## Loading zero needs zero beats -/

theorem eq_zero_of_setWidth_eq_zero {n : Nat} {b : Beat} (hlt : b.toNat < 2 ^ n)
    (h : b.setWidth n = 0) : b = 0 := by
  have hb : b.toNat % 2 ^ n = 0 := by simpa using congrArg BitVec.toNat h
  rw [Nat.mod_eq_of_lt hlt] at hb
  exact BitVec.eq_of_toNat_eq (by simpa using hb)

/-- DESER's range check keeps it from loading a nonzero beat as a zero word. -/
theorem Engine.eq_zeroWords_of_isZero_loaded {e : Engine} {v : Words 64} (hfit : e.fitsWords v = true)
    (hz : (e.loaded v).isZero = true) : v = zeroWords 64 := by
  simp only [Engine.fitsWords, Engine.fitsWord, Bool.and_eq_true, decide_eq_true_eq] at hfit
  obtain ⟨⟨⟨f0, f1⟩, f2⟩, f3⟩ := hfit
  have htrunc : truncW e.width.bits v.s0 = 0 ∧ truncW e.width.bits v.s1 = 0 ∧
      truncW e.width.bits v.s2 = 0 ∧ truncW e.width.bits v.s3 = 0 := by
    cases e with
    | engine64 w => exact eq_zeroWords_iff.1 ((Engine.isZero_engine64 _).1 hz)
    | engine32 w => exact eq_zeroWords_iff.1 ((Engine.isZero_engine32 _).1 hz)
  obtain ⟨t0, t1, t2, t3⟩ := htrunc
  exact eq_zeroWords_iff.2 ⟨eq_zero_of_setWidth_eq_zero f0 t0, eq_zero_of_setWidth_eq_zero f1 t1,
    eq_zero_of_setWidth_eq_zero f2 t2, eq_zero_of_setWidth_eq_zero f3 t3⟩

/-- The two 32-bit halves of a packed word. -/
theorem append_eq_zero_iff {a b : BitVec 32} : a ++ b = (0 : BitVec 64) ↔ a = 0 ∧ b = 0 := by
  refine ⟨fun h => ⟨?_, ?_⟩, by rintro ⟨rfl, rfl⟩; rfl⟩
  · exact BitVec.extractLsb'_append_eq_left.symm.trans (congrArg (BitVec.extractLsb' 32 32) h)
  · exact BitVec.setWidth_append_eq_right.symm.trans (congrArg (BitVec.setWidth 32) h)

theorem seqWord_eq_zero_of_pack64 {q : List Beat} (h : pack64 q = zeroWords 64) :
    ∀ j < 8, seqWord q j = 0 := by
  simp only [pack64, eq_zeroWords_iff, append_eq_zero_iff] at h
  intro j hj
  interval_cases j <;> simp only [h]

theorem seqWord_eq_zero_of_pack32 {q : List Beat} (h : pack32 q = zeroWords 32) :
    ∀ j < 4, seqWord q j = 0 := by
  simp only [pack32, eq_zeroWords_iff] at h
  intro j hj
  interval_cases j <;> simp only [h]

/-- `NSEQ` of Engine64 (00_scope.md R5). -/
theorem nseq_w64 : Width.w64.nseq = 16 := rfl

/-- `NSEQ` of Engine32 (00_scope.md R5). -/
theorem nseq_w32 : Width.w32.nseq = 8 := rfl

/-- SEEDQ's range check keeps it from packing a nonzero beat as a zero word; the used words are the first
`NSEQ / 2` (20_memory.md R44). -/
theorem Engine.take_eq_zero_of_isZero_packed {e : Engine} {q : List Beat} (hok : e.sequenceOk q = true)
    (hz : (e.packed q).isZero = true) : ∀ b ∈ q.take (e.width.nseq / 2), b = 0 := by
  simp only [Engine.sequenceOk, Bool.and_eq_true, List.all_eq_true, decide_eq_true_eq] at hok
  obtain ⟨-, hfit⟩ := hok
  have hused : ∀ j < e.width.nseq / 2, seqWord q j = 0 := by
    cases e with
    | engine64 w =>
      simpa [Engine.width, nseq_w64] using seqWord_eq_zero_of_pack64 ((Engine.isZero_engine64 _).1 hz)
    | engine32 w =>
      simpa [Engine.width, nseq_w32] using seqWord_eq_zero_of_pack32 ((Engine.isZero_engine32 _).1 hz)
  intro b hb
  obtain ⟨j, hj, rfl⟩ := List.mem_take_iff_getElem.1 hb
  have hword := hused j (by omega)
  rw [seqWord, List.getD_eq_getElem _ _ (by omega)] at hword
  exact eq_zero_of_setWidth_eq_zero (hfit _ (List.getElem_mem _)) hword

/-! ## How a nonzero engine becomes zero -/

/-- What a command that turns a nonzero engine of width `w` into the zero one can be. -/
def LoadsZero (w : Width) (i : Instr) : Prop :=
  i = .deser [0, 0, 0, 0] ∨ ∃ q, i = .seedq q ∧ ∀ b ∈ q.take (w.nseq / 2), b = 0

/-- Of the writers, stepping keeps a nonzero engine nonzero and seeding makes it so; the loads are left. -/
theorem exec_loadsZero {i : Instr} {s t : State} (h : exec i s = .next t)
    (hs : s.engine.isZero = false) (ht : t.engine.isZero = true) : LoadsZero s.engine.width i := by
  obtain ⟨e, st, data, hexec, hregs⟩ := exec_cases i s
  obtain rfl : s.answered e _ = t := by simpa [hexec] using h
  rw [State.answered_engine] at ht
  obtain ⟨rfl, -⟩ | ⟨-, ⟨rfl, -⟩ | ⟨-, rfl⟩ | ⟨n, -, rfl⟩ | ⟨x, -, rfl⟩ | ⟨-, rfl⟩ | ⟨q, rfl, hok, rfl⟩ |
    ⟨v, rfl, hfit, rfl⟩⟩ := hregs
  case inr.inr.inr.inr.inr.inr.inl => exact .inr ⟨q, rfl, Engine.take_eq_zero_of_isZero_packed hok ht⟩
  case inr.inr.inr.inr.inr.inr.inr =>
    obtain rfl := Engine.eq_zeroWords_of_isZero_loaded hfit ht
    exact .inl rfl
  all_goals simp [hs, Engine.seededDefault_eq_construct] at ht

/-- An illegal packet keeps the registers, so the packet decodes. -/
theorem runPacket_loadsZero {p : CommandPacket} {s t : State} (h : runPacket p s = .next t)
    (hs : s.engine.isZero = false) (ht : t.engine.isZero = true) :
    ∃ i, decode p = .ok i ∧ LoadsZero s.engine.width i := by
  obtain ⟨i, hi, hrun⟩ | ⟨-, hrun⟩ := runPacket_cases p s
  · exact ⟨i, hi, exec_loadsZero (hrun.symm.trans h) hs ht⟩
  · obtain rfl : s.answered s.engine _ = t := by simpa [hrun] using h
    simp [hs] at ht

/-- Settles O44: idle keeps the registers, a reset (also one that cuts a command short) constructs nonzero ones,
so a packet was run. -/
theorem onlyLoadingZerosGivesZeroState : Obligations.OnlyLoadingZerosGivesZeroState := by
  intro s t h hs ht
  obtain ⟨-, hstep⟩ | ⟨rest, -, hstep⟩ | ⟨p, rest, hp, -, hstep⟩ | ⟨p, rest, sent, rest', u, -, -, -, hstep⟩ :=
    step_cases s <;> rw [hstep] at h
  case inr.inr.inl =>
    obtain ⟨i, hi, rfl | ⟨q, rfl, hq⟩⟩ := runPacket_loadsZero h hs ht
    · exact ⟨p, rest, hp, .inl hi⟩
    · exact ⟨p, rest, hp, .inr ⟨q, hi, hq⟩⟩
  all_goals
    cases h
    simp [hs] at ht

end Sys2Proof.Machine
end

section
/-! PROOFS of the statements about 20_memory.md: the packing of a seed sequence (R44), and what a repeated command
does (R48). -/

namespace Sys2Proof.Machine

/-! ## Reading a command twice -/

/-- An answer determines the registers it leaves and its response. -/
theorem State.answered_inj {s : State} {e e' : Engine} {r r' : List Beat} :
    s.answered e r = s.answered e' r' ↔ e = e' ∧ r = r' := by
  simp [State.answered]

/-- Settles O42: the first answer keeps the registers, and the second is read from the registers alone. -/
theorem readOnlyCommandsAnswerTheSameTwice : Obligations.ReadOnlyCommandsAnswerTheSameTwice := by
  intro i s hi
  obtain ⟨r, hfirst⟩ := readOnlyCommandsKeepRegisters i s hi
  obtain ⟨e, r', hsame, hsecond⟩ := exec_reads_registers_only i s (s.answered s.engine r) rfl
  obtain ⟨rfl, rfl⟩ : s.engine = e ∧ r = r' := by simpa [hfirst, State.answered_inj] using hsame
  exact ⟨_, r, hfirst, rfl, hsecond⟩

/-! ## The answers of the loading commands -/

theorem exec_seed_singleton (x : Beat) (s : State) :
    exec (.seed [x]) s = .next (s.answered (s.engine.seeded x) [0x0100]) := rfl

theorem exec_seedd_nil (s : State) :
    exec (.seedd []) s = .next (s.answered s.engine.seededDefault [0x0200]) := rfl

theorem exec_seedq_of_sequenceOk {q : List Beat} {s : State} (h : s.engine.sequenceOk q = true) :
    exec (.seedq q) s = .next (s.answered (s.engine.packed q) [0x0300]) := by
  simp only [exec, execSeedq, h]
  rfl

theorem exec_seedq_of_not_sequenceOk {q : List Beat} {s : State} (h : ¬ s.engine.sequenceOk q = true) :
    exec (.seedq q) s = .next (s.answered s.engine [0x0302]) := by
  simp only [exec, execSeedq, h]
  rfl

theorem exec_deser_of_fitsWords {v : Words 64} {s : State} (h : s.engine.fitsWords v = true) :
    exec (.deser [v.s0, v.s1, v.s2, v.s3]) s = .next (s.answered (s.engine.loaded v) [0x0900]) := by
  simp only [exec, execDeser, quadOperand, h]
  rfl

/-! ## A load uses the width of the old registers and no more -/

/-- What a load gives on registers of width `w` is what it gives on the reset registers of that width. -/
theorem Engine.seeded_construct_width (x : Beat) (e : Engine) :
    (Engine.construct e.width).seeded x = e.seeded x := by
  cases e <;> rfl

theorem Engine.packed_construct_width (q : List Beat) (e : Engine) :
    (Engine.construct e.width).packed q = e.packed q := by
  cases e <;> rfl

theorem Engine.loaded_construct_width (v : Words 64) (e : Engine) :
    (Engine.construct e.width).loaded v = e.loaded v := by
  cases e <;> rfl

/-- Step 3 of 30_encoding.md R67. -/
theorem length_of_wellFormed {i : Instr} {w : Width} (h : i.wellFormed w = true) :
    i.payload.length = i.command.format.need w := by
  simp only [Instr.wellFormed, Instr.lengthOk, Bool.and_eq_true, beq_iff_eq] at h
  exact h.1

/-- The checks of SEEDQ are those that the engine makes. -/
theorem wellFormed_seedq_eq (e : Engine) (q : List Beat) :
    (Instr.seedq q).wellFormed e.width = e.sequenceOk q := rfl

/-- Of four beats DESER checks the range, as the engine does. -/
theorem wellFormed_deser_quad (e : Engine) (v : Words 64) :
    (Instr.deser [v.s0, v.s1, v.s2, v.s3]).wellFormed e.width = e.fitsWords v := by
  simp [Instr.wellFormed, Instr.lengthOk, Instr.rangeOk, Instr.payload, Instr.command, Command.format,
    Format.need, Engine.fitsWords, Engine.fitsWord, Bool.and_assoc]

/-- A loading command that passes its checks gives the same answer on all registers of one width. -/
theorem exec_load_of_width {i : Instr} {w : Width}
    (hi : i.command = .seed ∨ i.command = .seedd ∨ i.command = .seedq ∨ i.command = .deser)
    (hwf : i.wellFormed w = true) :
    ∃ (e : Engine) (r : List Beat), ∀ s : State, s.engine.width = w → exec i s = .next (s.answered e r) := by
  cases i with
  | seed p =>
    obtain ⟨x, rfl⟩ := List.length_eq_one_iff.1 (length_of_wellFormed hwf)
    refine ⟨(Engine.construct w).seeded x, [0x0100], ?_⟩
    rintro s rfl
    rw [exec_seed_singleton, Engine.seeded_construct_width]
  | seedd p =>
    obtain rfl := List.length_eq_zero_iff.1 (length_of_wellFormed hwf)
    refine ⟨Engine.construct w, [0x0200], ?_⟩
    rintro s rfl
    rw [exec_seedd_nil, Engine.seededDefault_eq_construct]
  | seedq q =>
    refine ⟨(Engine.construct w).packed q, [0x0300], ?_⟩
    rintro s rfl
    have hok := (wellFormed_seedq_eq s.engine q).symm.trans hwf
    rw [exec_seedq_of_sequenceOk hok, Engine.packed_construct_width]
  | deser p =>
    obtain ⟨a, b, c, d, rfl⟩ := List.length_eq_four.1 (length_of_wellFormed hwf)
    refine ⟨(Engine.construct w).loaded ⟨a, b, c, d⟩, [0x0900], ?_⟩
    rintro s rfl
    have hfit := (wellFormed_deser_quad s.engine ⟨a, b, c, d⟩).symm.trans hwf
    rw [exec_deser_of_fitsWords hfit, Engine.loaded_construct_width]
  | _ => simp [Instr.command] at hi

/-- Settles O25: the one answer serves both states. -/
theorem loadingForgetsOldRegisters : Obligations.LoadingForgetsOldRegisters := by
  intro i s s' hwidth hi hwf
  obtain ⟨e, r, hexec⟩ := exec_load_of_width hi hwf
  exact ⟨e, r, hexec s rfl, hexec s' hwidth.symm⟩

/-! ## Packing a seed sequence -/

/-- Format `V` as the two checks it makes. -/
theorem Engine.sequenceOk_iff {e : Engine} {q : List Beat} :
    e.sequenceOk q = true ↔ q.length = e.width.nseq ∧ ∀ b ∈ q, b.toNat < 2 ^ 32 := by
  simp [Engine.sequenceOk]

/-- A 32-bit word sent as a beat passes the range check. -/
theorem Engine.sequenceOk_map_setWidth {e : Engine} {q : List (BitVec 32)} (h : q.length = e.width.nseq) :
    e.sequenceOk (q.map fun v => v.setWidth 64) = true := by
  refine Engine.sequenceOk_iff.2 ⟨by simpa using h, ?_⟩
  intro b hb
  obtain ⟨v, -, rfl⟩ := List.mem_map.1 hb
  rw [BitVec.toNat_setWidth_of_le (by decide)]
  exact v.isLt

/-- The engine reads back each 32-bit word that was sent as a beat. -/
@[simp] theorem seqWord_map_setWidth (q : List (BitVec 32)) (j : Nat) :
    seqWord (q.map fun v => v.setWidth 64) j = q.getD j 0 := by
  simp only [seqWord, List.getD_eq_getElem?_getD, List.getElem?_map]
  cases q[j]? <;> simp

/-- `NSEQ` words, each sent as a beat, are packed. -/
theorem exec_seedq_map_setWidth {s : State} {q : List (BitVec 32)} (h : q.length = s.engine.width.nseq) :
    exec (.seedq (q.map fun v => v.setWidth 64)) s =
      .next (s.answered (s.engine.packed (q.map fun v => v.setWidth 64)) [0x0300]) :=
  exec_seedq_of_sequenceOk (Engine.sequenceOk_map_setWidth h)

/-- A wrong count or a beat of `2^32` or more keeps the registers. -/
theorem exec_seedq_domainError {s : State} {payload : List Beat}
    (h : payload.length ≠ s.engine.width.nseq ∨ ∃ b ∈ payload, 2 ^ 32 ≤ b.toNat) :
    exec (.seedq payload) s = .next (s.answered s.engine [0x0302]) := by
  refine exec_seedq_of_not_sequenceOk fun hok => ?_
  obtain ⟨hlen, hfit⟩ := Engine.sequenceOk_iff.1 hok
  obtain hlen' | ⟨b, hb, hbig⟩ := h
  · exact hlen' hlen
  · exact absurd (hfit b hb) (by omega)

/-- Settles O23: the two checks decide between the packed registers and the old ones, with `NSEQ` 16 or 8. -/
theorem seedqPacksOrFails : Obligations.SeedqPacksOrFails := by
  refine ⟨fun s w hs => ?_, fun s w hs => ?_⟩
  · have hn : s.engine.width.nseq = 16 := by rw [hs]; exact nseq_w64
    rw [← hn]
    refine ⟨fun q hq => ?_, fun payload => exec_seedq_domainError⟩
    rw [exec_seedq_map_setWidth hq, hs]
    simp only [Engine.packed, pack64, seqWord_map_setWidth]
  · have hn : s.engine.width.nseq = 8 := by rw [hs]; exact nseq_w32
    rw [← hn]
    refine ⟨fun q hq => ?_, fun payload => exec_seedq_domainError⟩
    rw [exec_seedq_map_setWidth hq, hs]
    simp only [Engine.packed, pack32, seqWord_map_setWidth]

end Sys2Proof.Machine
end

section
/-! PROOFS of the statements about 30_encoding.md: decoder and encoder (R64, R65), the step on a packet (R60, R61),
the checks and the shape of responses (R66, R67), the pseudo-instructions (R69), the assembler's lines (R68). -/

namespace Sys2Proof

/-! ## Decoding and encoding (30_encoding.md R64, R65) -/

/-- The opcode map assigns an opcode to `c` exactly where the encoder writes it for `c`. -/
theorem commandOfOpcode_eq_some_iff {op : BitVec 8} {c : Command} :
    commandOfOpcode op = some c ↔ op = c.opcode := by
  refine ⟨fun h => ?_, by rintro rfl; exact commandOfOpcode_opcode c⟩
  obtain ⟨row, hfind, rfl⟩ := Option.map_eq_some_iff.1 h
  have hop : row.opcode = op := by simpa using List.find?_some hfind
  exact hop.symm.trans (opcodeTable_opcode row (List.mem_of_find?_eq_some hfind))

/-- The two fields determine the header, so it is the one the encoder writes. -/
theorem eq_opcode_of_fields {h : Beat} {c : Command} (hres : headerReserved h = 0)
    (hop : headerOpcode h = c.opcode) : h = c.opcode.setWidth 64 := by
  apply BitVec.eq_of_toNat_eq
  rw [header_of_fields h, hres, hop, BitVec.toNat_setWidth_of_le (by decide)]
  rfl

@[simp] theorem decode_encode (i : Instr) : decode (encode i) = .ok i := by
  simp [decode, encode]

/-- Steps 1 and 2 of R67 passed, and what the command then is. -/
theorem decode_eq_ok_iff {p : CommandPacket} {i : Instr} :
    decode p = .ok i ↔ headerReserved p.header = 0 ∧ headerOpcode p.header = i.command.opcode ∧
      p.payload = i.payload := by
  constructor
  · intro h
    simp only [decode] at h
    split at h
    · cases h
    · rename_i hres
      split at h
      · cases h
      · rename_i c hc
        cases h
        exact ⟨not_not.1 hres, by simpa using commandOfOpcode_eq_some_iff.1 hc, by simp⟩
  · rintro ⟨hres, hop, hp⟩
    simp [decode, hres, hop, hp]

end Sys2Proof

namespace Sys2Proof.Machine

/-- Settles O9: the fields that the decoder reads are the whole header. -/
theorem decodeEncodeAgree : Obligations.DecodeEncodeAgree := by
  intro p i
  refine ⟨fun h => ?_, by rintro rfl; exact decode_encode i⟩
  obtain ⟨hres, hop, hpayload⟩ := decode_eq_ok_iff.1 h
  rw [encode, ← eq_opcode_of_fields hres hop, ← hpayload]

/-- Settles O10: the seven commands are encodings, the last two headers illegal ones. -/
theorem writtenHeadersDecode : Obligations.WrittenHeadersDecode :=
  ⟨decode_encode (.nop []), decode_encode (.seed [12345]), decode_encode (.next []),
    decode_encode (.discard [7]), decode_encode (.ljump []), decode_encode (.deser [1, 2, 3, 4]),
    decode_encode (.range []), rfl, rfl⟩

/-! ## The step on the beats of a packet (R60) -/

theorem step_unfinished {s : State} {beats : List Beat}
    (h : s.port = beats.map fun v => PortEvent.beat v false) : step s = .next s := by
  simp [step, h, fetch_unfinished]

theorem step_packet {s : State} {p : CommandPacket} {rest : List PortEvent}
    (hport : s.port = packetEvents p ++ rest) (hrest : interruption rest = none) :
    step s = runPacket p (s.withPort rest) := by
  simp [step, hport, fetch_packetEvents, hrest]

theorem runPacket_of_decode {p : CommandPacket} {i : Instr} (h : decode p = .ok i) (s : State) :
    runPacket p s = exec i s := by
  simp [runPacket, h]

/-- Settles O6: beats without an end are no fetch. -/
theorem unfinishedPacketChangesNothing : Obligations.UnfinishedPacketChangesNothing :=
  fun _ _ h => step_unfinished h

/-- Settles O4: the fetch of the whole packet, then its decoding. -/
theorem stepExecutesDecodedCommand : Obligations.StepExecutesDecodedCommand := by
  intro s p i rest hport hrest hdec
  rw [step_packet hport hrest, runPacket_of_decode hdec]

/-- What `withFetchWord` leaves of the port begins with no reset that would cut the command short. -/
theorem interruption_dropWhile (port : List PortEvent) :
    interruption (port.dropWhile fun e => (interruption [e]).isSome) = none := by
  induction port with
  | nil => rfl
  | cons e es ih =>
    cases e with
    | beat v last => rfl
    | reset => rfl
    | resetDuring sent => exact ih

theorem decode_of_decodeTableWord {nbits w : Nat} {i : Instr} (h : decodeTableWord nbits w = some i) :
    decode (packetOfTableWord nbits w) = .ok i := by
  simp only [decodeTableWord] at h
  split at h
  · cases h; assumption
  · cases h

/-- Settles O5: the packet stands whole at the port and nothing cuts it short. -/
theorem tableWordRunsNext : Obligations.TableWordRunsNext := by
  intro s nbits w i h
  exact ⟨_, stepExecutesDecodedCommand (s.withFetchWord nbits w) _ i _ rfl (interruption_dropWhile s.port)
    (decode_of_decodeTableWord h)⟩

/-- The echo is `h[7:0]`, of a command and of an illegal header alike (R66). -/
theorem runPacket_echoes (p : CommandPacket) (s : State) :
    ∃ (e : Engine) (st : Status) (data : List Beat),
      runPacket p s = .next (s.answered e (responseHeader st (headerOpcode p.header) :: data)) := by
  obtain ⟨i, hdec, hrun⟩ | ⟨-, hrun⟩ := runPacket_cases p s
  · obtain ⟨-, hop, -⟩ := decode_eq_ok_iff.1 hdec
    obtain ⟨e, st, data, hexec, -⟩ := exec_cases i s
    exact ⟨e, st, data, by rw [hrun, hexec, hop]⟩
  · exact ⟨_, _, _, hrun⟩

/-- Settles O8: the one answer of a packet, whose header carries the echo in its echo field. -/
theorem oneResponsePerCommandPacket : Obligations.OneResponsePerCommandPacket := by
  intro s p rest hport hrest
  obtain ⟨e, st, data, hrun⟩ := runPacket_echoes p (s.withPort rest)
  exact ⟨e, _, data, (step_packet hport hrest).trans hrun, responseHeader_echo st (headerOpcode p.header)⟩

/-! ## A command that fails a check (R67, R171, R172, R174) -/

/-- The status with which a command answers a payload that fails its checks. -/
def failureStatus : Command → Status
  | .deser => .formatError
  | .seedq => .domainError
  | .nop | .seed | .seedd | .next | .discard | .jump | .ljump | .ser | .cmpeq | .range => .lengthError

theorem failureStatus_ne_ok (c : Command) : failureStatus c ≠ .ok := by
  cases c <;> decide

theorem statusCode_failureStatus (c : Command) :
    (statusCode (failureStatus c)).toNat = if c = .deser then 1 else if c = .seedq then 2 else 4 := by
  cases c <;> rfl

theorem noOperand_eq_false {payload : List Beat} : noOperand payload = false ↔ payload.length ≠ 0 := by
  cases payload <;> simp [noOperand]

/-- Where step 4 of R67 checks nothing, a failure is one of step 3. -/
theorem length_of_not_wellFormed {i : Instr} {w : Width} (hrange : i.rangeOk w = true)
    (h : i.wellFormed w = false) : i.payload.length ≠ i.command.format.need w := by
  simpa [Instr.wellFormed, Instr.lengthOk, hrange] using h

/-- A failed check is answered with the command's one error and nothing else (R67, R176). -/
theorem exec_of_not_wellFormed {i : Instr} {s : State} (h : i.wellFormed s.engine.width = false) :
    exec i s = .next (s.raise (failureStatus i.command) i.command.opcode) := by
  cases i with
  | nop p => rw [exec, execNop, (noOperand_eq_false (payload := p)).2 (length_of_not_wellFormed rfl h)]; rfl
  | seed p => rw [exec, execSeed, (scalarOperand_eq_none (payload := p)).2 (length_of_not_wellFormed rfl h)]; rfl
  | seedd p => rw [exec, execSeedd, (noOperand_eq_false (payload := p)).2 (length_of_not_wellFormed rfl h)]; rfl
  | seedq q =>
    rw [wellFormed_seedq_eq] at h
    rw [exec, execSeedq, h]
    rfl
  | next p => rw [exec, execNext, (noOperand_eq_false (payload := p)).2 (length_of_not_wellFormed rfl h)]; rfl
  | discard p => rw [exec, execDiscard, (scalarOperand_eq_none (payload := p)).2 (length_of_not_wellFormed rfl h)]; rfl
  | jump p => rw [exec, execJump, (noOperand_eq_false (payload := p)).2 (length_of_not_wellFormed rfl h)]; rfl
  | ljump p => rw [exec, execLjump, (noOperand_eq_false (payload := p)).2 (length_of_not_wellFormed rfl h)]; rfl
  | ser p => rw [exec, execSer, (noOperand_eq_false (payload := p)).2 (length_of_not_wellFormed rfl h)]; rfl
  | deser p =>
    cases hquad : quadOperand p with
    | none => rw [exec, execDeser, hquad]; rfl
    | some v =>
      obtain rfl := quadOperand_eq_some.1 hquad
      rw [wellFormed_deser_quad] at h
      rw [exec, execDeser, hquad]
      simp only [h]
      rfl
  | cmpeq p => rw [exec, execCmpeq, (quadOperand_eq_none (payload := p)).2 (length_of_not_wellFormed rfl h)]; rfl
  | range p => rw [exec, execRange, (noOperand_eq_false (payload := p)).2 (length_of_not_wellFormed rfl h)]; rfl

/-! ## A command that passes its checks -/

/-- Response data beats on OK, as the opcode map has them (R64). -/
def dataBeats : Command → Nat
  | .nop | .seed | .seedd | .seedq | .discard | .deser => 0
  | .next | .cmpeq => 1
  | .jump | .ljump | .ser => 4
  | .range => 2

/-- `dataBeats` is the column of the opcode map. -/
theorem exists_row_dataBeats (c : Command) :
    ∃ row ∈ opcodeTable, row.opcode = c.opcode ∧ dataBeats c = row.dataBeats := by
  cases c <;> decide

/-- The data beats of an OK response to `c`: as many as its row says, each below `2^W` (R66). -/
def OkData (w : Width) (c : Command) (data : List Beat) : Prop :=
  data.length = dataBeats c ∧ ∀ b ∈ data, b.toNat < 2 ^ w.bits

theorem okData_nil {w : Width} {c : Command} (h : dataBeats c = 0) : OkData w c [] :=
  ⟨h.symm, by simp⟩

theorem toNat_zext64_lt {n : Nat} (v : BitVec n) : (zext64 v).toNat < 2 ^ n := by
  rw [zext64, BitVec.toNat_setWidth]
  exact (Nat.mod_le _ _).trans_lt v.isLt

theorem muxBeats_lt {n : Nat} (s : Words n) : ∀ b ∈ muxBeats s, b.toNat < 2 ^ n := by
  simp [muxBeats_eq, toNat_zext64_lt]

theorem Engine.length_words (e : Engine) : e.words.length = 4 := by
  cases e <;> rfl

theorem Engine.words_lt (e : Engine) : ∀ b ∈ e.words, b.toNat < 2 ^ e.width.bits := by
  cases e with
  | engine64 s => exact muxBeats_lt s
  | engine32 s => exact muxBeats_lt s

theorem Engine.output_lt (e : Engine) : e.output.toNat < 2 ^ e.width.bits := by
  cases e with
  | engine64 s => exact toNat_zext64_lt _
  | engine32 s => exact toNat_zext64_lt _

theorem Engine.maxOutput_lt (e : Engine) : e.maxOutput.toNat < 2 ^ e.width.bits := by
  cases e with
  | engine64 s => exact (by decide : (BitVec.ofNat 64 (2 ^ 64 - 1)).toNat < 2 ^ 64)
  | engine32 s => exact (by decide : (BitVec.ofNat 64 (2 ^ 32 - 1)).toNat < 2 ^ 32)

theorem truthBeat_lt (b : Bool) (w : Width) : (truthBeat b).toNat < 2 ^ w.bits := by
  cases b <;> cases w <;> decide

/-- The words of registers of the engine's own width are the data of a command that answers four beats. -/
theorem okData_words {e e' : Engine} {c : Command} (hc : dataBeats c = 4) (hw : e'.width = e.width) :
    OkData e.width c e'.words :=
  ⟨by rw [Engine.length_words, hc], hw ▸ Engine.words_lt e'⟩

/-- A command that passes its checks answers OK, with the data that its row says. -/
theorem exec_of_wellFormed {i : Instr} {s : State} (h : i.wellFormed s.engine.width = true) :
    ∃ (e : Engine) (data : List Beat), OkData s.engine.width i.command data ∧
      exec i s = .next (s.answered e (responseHeader .ok i.command.opcode :: data)) := by
  have hlen := length_of_wellFormed h
  cases i with
  | nop p =>
    obtain rfl := List.length_eq_zero_iff.1 hlen
    exact ⟨_, [], okData_nil rfl, rfl⟩
  | seed p =>
    obtain ⟨x, rfl⟩ := List.length_eq_one_iff.1 hlen
    exact ⟨_, [], okData_nil rfl, rfl⟩
  | seedd p =>
    obtain rfl := List.length_eq_zero_iff.1 hlen
    exact ⟨_, [], okData_nil rfl, rfl⟩
  | seedq q =>
    rw [wellFormed_seedq_eq] at h
    exact ⟨_, [], okData_nil rfl, by rw [exec, execSeedq, if_pos h]; rfl⟩
  | next p =>
    obtain rfl := List.length_eq_zero_iff.1 hlen
    exact ⟨_, [s.engine.output], ⟨rfl, by simpa using s.engine.output_lt⟩, rfl⟩
  | discard p =>
    obtain ⟨n, rfl⟩ := List.length_eq_one_iff.1 hlen
    exact ⟨_, [], okData_nil rfl, rfl⟩
  | jump p =>
    obtain rfl := List.length_eq_zero_iff.1 hlen
    exact ⟨_, _, okData_words rfl s.engine.width_jumped, rfl⟩
  | ljump p =>
    obtain rfl := List.length_eq_zero_iff.1 hlen
    exact ⟨_, _, okData_words rfl s.engine.width_longJumped, rfl⟩
  | ser p =>
    obtain rfl := List.length_eq_zero_iff.1 hlen
    exact ⟨_, _, okData_words rfl rfl, rfl⟩
  | deser p =>
    obtain ⟨a, b, c, d, rfl⟩ := List.length_eq_four.1 hlen
    have hfit := (wellFormed_deser_quad s.engine ⟨a, b, c, d⟩).symm.trans h
    exact ⟨_, [], okData_nil rfl, by simp only [exec, execDeser, quadOperand, hfit]; rfl⟩
  | cmpeq p =>
    obtain ⟨a, b, c, d, rfl⟩ := List.length_eq_four.1 hlen
    exact ⟨_, _, ⟨rfl, by simpa using truthBeat_lt _ _⟩, rfl⟩
  | range p =>
    obtain rfl := List.length_eq_zero_iff.1 hlen
    exact ⟨_, _, ⟨rfl, by simpa [minOutput] using s.engine.maxOutput_lt⟩, rfl⟩

/-- Settles O13: the two outcomes of the checks, with the response headers as numbers. -/
theorem checksDecideTheStatus : Obligations.ChecksDecideTheStatus := by
  intro i s
  refine ⟨fun h => ?_, fun h => ?_⟩
  · rw [exec_of_not_wellFormed h, State.raise_eq_answered, responseHeader_eq, statusCode_failureStatus]
  · obtain ⟨e, data, -, hexec⟩ := exec_of_wellFormed h
    exact ⟨e, data, by simpa [responseHeader_eq, statusCode] using hexec⟩

/-! ## The shape of responses (R66) -/

theorem wholeResponse_of_error {st : Status} (h : st ≠ .ok) (w : Width) (echo : BitVec 8) :
    WholeResponse w [responseHeader st echo] :=
  ⟨st, echo, [], by rw [responseHeader_eq], fun _ => rfl, fun hok => absurd hok h, by simp⟩

theorem wholeResponse_of_okData {w : Width} {c : Command} {data : List Beat} (h : OkData w c data) :
    WholeResponse w (responseHeader .ok c.opcode :: data) := by
  obtain ⟨hlen, hlt⟩ := h
  obtain ⟨row, hrow, hop, hbeats⟩ := exists_row_dataBeats c
  exact ⟨.ok, c.opcode, data, by rw [responseHeader_eq], fun hne => absurd rfl hne,
    fun _ => ⟨row, hrow, hop, hlen.trans hbeats⟩, hlt⟩

/-- Every command is answered with a whole response: an error without data, or OK with its row's data. -/
theorem exec_answers_wholeResponse (i : Instr) (s : State) :
    ∃ (e : Engine) (r : List Beat), WholeResponse s.engine.width r ∧ exec i s = .next (s.answered e r) := by
  cases h : i.wellFormed s.engine.width with
  | false => exact ⟨_, _, wholeResponse_of_error (failureStatus_ne_ok _) _ _, exec_of_not_wellFormed h⟩
  | true =>
    obtain ⟨e, data, hdata, hexec⟩ := exec_of_wellFormed h
    exact ⟨e, _, wholeResponse_of_okData hdata, hexec⟩

theorem runPacket_answers_wholeResponse (p : CommandPacket) (s : State) :
    ∃ (e : Engine) (r : List Beat), WholeResponse s.engine.width r ∧ runPacket p s = .next (s.answered e r) := by
  obtain ⟨i, -, hrun⟩ | ⟨-, hrun⟩ := runPacket_cases p s
  · rw [hrun]
    exact exec_answers_wholeResponse i s
  · exact ⟨_, _, wholeResponse_of_error (by decide) _ _, hrun⟩

theorem WholeResponse.sentResponse_take {w : Width} {r : List Beat} (h : WholeResponse w r) {sent : Nat}
    (hsent : sent ≠ 0) : SentResponse w (r.take sent) := by
  refine ⟨?_, r, h, List.take_prefix sent r⟩
  obtain ⟨st, echo, data, rfl, -⟩ := h
  simp [hsent]

theorem WholeResponse.sentResponse {w : Width} {r : List Beat} (h : WholeResponse w r) :
    SentResponse w r := by
  obtain ⟨st, echo, data, hr, -⟩ := id h
  exact ⟨by simp [hr], r, h, List.prefix_rfl⟩

/-- One more response of the right shape keeps the invariant. -/
theorem State.ResponsesWellFormed.append {s t : State} {r : List Beat} (hs : s.ResponsesWellFormed)
    (hw : t.engine.width = s.engine.width) (ht : t.responses = s.responses ++ [r])
    (hr : SentResponse s.engine.width r) : t.ResponsesWellFormed := by
  intro x hx
  rw [ht, List.mem_append, List.mem_singleton] at hx
  rw [hw]
  obtain hx | rfl := hx
  · exact hs x hx
  · exact hr

theorem State.ResponsesWellFormed.congr {s t : State} (hs : s.ResponsesWellFormed)
    (hw : t.engine.width = s.engine.width) (ht : t.responses = s.responses) : t.ResponsesWellFormed := by
  unfold State.ResponsesWellFormed
  rwa [hw, ht]

theorem runPacket_keeps_responsesWellFormed {p : CommandPacket} {s t : State} (hs : s.ResponsesWellFormed)
    (h : runPacket p s = .next t) : t.ResponsesWellFormed := by
  obtain ⟨e, r, hr, hrun⟩ := runPacket_answers_wholeResponse p s
  obtain rfl : s.answered e r = t := by simpa [hrun] using h
  exact hs.append (runPacket_keeps_width h) rfl hr.sentResponse

/-- Of a response that is cut off nothing leaves, or a nonempty first part (log 7). -/
theorem cutShort_keeps_responsesWellFormed {p : CommandPacket} {s t : State} (hs : s.ResponsesWellFormed)
    (h : runPacket p s = .next t) (sent : Nat) (rest : List PortEvent) :
    (s.cutShort t sent rest).ResponsesWellFormed := by
  obtain ⟨e, r, hr, hrun⟩ := runPacket_answers_wholeResponse p s
  obtain rfl : s.answered e r = t := by simpa [hrun] using h
  have hw : (s.cutShort (s.answered e r) sent rest).engine.width = s.engine.width := by simp
  have hresp : (s.cutShort (s.answered e r) sent rest).responses =
      s.responses ++ if sent = 0 then [] else [r.take sent] := by
    obtain ⟨st, echo, data, rfl, -⟩ := hr
    exact s.cutShort_answered_responses e _ data sent rest
  by_cases hsent : sent = 0
  · exact hs.congr hw (by simpa [hsent] using hresp)
  · exact hs.append hw (by simpa [hsent] using hresp) (hr.sentResponse_take hsent)

/-- Settles O46: idle and reset add no response, a packet adds a whole one, a packet cut short a first part of
one or none. -/
theorem stepKeepsResponsesWellFormed : Obligations.StepKeepsResponsesWellFormed := by
  intro s t hs h
  obtain ⟨-, hstep⟩ | ⟨rest, -, hstep⟩ | ⟨p, rest, -, -, hstep⟩ | ⟨p, rest, sent, rest', u, -, -, hrun, hstep⟩ :=
    step_cases s <;> rw [hstep] at h
  · cases h
    exact hs
  · cases h
    exact hs.congr (by simp) rfl
  · exact runPacket_keeps_responsesWellFormed (s := s.withPort rest) hs h
  · cases h
    exact cutShort_keeps_responsesWellFormed (s := s.withPort rest') hs hrun sent rest'

/-- Settles O47: there is no response at reset. -/
theorem responsesWellFormedAtReset : Obligations.ResponsesWellFormedAtReset := by
  have hreset : ∀ w, (State.resetOf w).ResponsesWellFormed := by
    intro w
    simp [State.ResponsesWellFormed]
  exact ⟨hreset Config.instanceWidth, hreset⟩

/-! ## The host's commands on one instance -/

/-- What the command answers with nothing else at the port is the transaction's outcome. -/
theorem State.transact_encode {s : State} {i : Instr} {e : Engine} {r : List Beat}
    (h : exec i (s.withPort []) = .next ((s.withPort []).answered e r)) :
    s.transact (encode i) = ((s.withPort []).answered e r, r) := by
  obtain ⟨e', r', hrun, htransact⟩ := s.transact_cases (encode i)
  rw [runPacket_of_decode (decode_encode i), h, Host.Outcome.next.injEq, State.answered_inj] at hrun
  obtain ⟨rfl, rfl⟩ := hrun
  exact htransact

/-- Settles O55: MIN and MAX read the one response of RANGE. -/
theorem minMaxReadRange : Obligations.MinMaxReadRange := by
  intro s
  have hrange : s.command (.range []) = ((s.withPort []).answered s.engine
      [0x0B00, minOutput, s.engine.maxOutput], [0x0B00, minOutput, s.engine.maxOutput]) :=
    State.transact_encode rfl
  refine ⟨?_, ?_⟩
  · rw [minOf, hrange]
    rfl
  · rw [maxOf, hrange]
    cases s.engine <;> rfl

/-! ## Sending to one position of a system -/

theorem sendTo_eq_set {sys : System} {k : Nat} {s : State} (p : CommandPacket) (h : sys[k]? = some s) :
    sendTo sys k p = sys.set k (s.transact p).1 := by
  rw [sendTo, h]

theorem construct_eq_set {sys : System} {k : Nat} {s : State} (h : sys[k]? = some s) :
    construct sys k = sys.set k s.resetNow := by
  rw [construct, h]

theorem responseOf_self {sys : System} {k : Nat} {s : State} (p : CommandPacket) (h : sys[k]? = some s) :
    responseOf sys k p = (s.transact p).2 := by
  rw [responseOf, h]

section
variable {sys : System} {k : Nat} {s : State} {i : Instr} {e : Engine} {r : List Beat}

theorem sendTo_encode (hk : sys[k]? = some s)
    (h : exec i (s.withPort []) = .next ((s.withPort []).answered e r)) :
    (sendTo sys k (encode i))[k]? = some ((s.withPort []).answered e r) := by
  rw [sendTo_self _ hk, State.transact_encode h]

theorem responseOf_encode (hk : sys[k]? = some s)
    (h : exec i (s.withPort []) = .next ((s.withPort []).answered e r)) :
    responseOf sys k (encode i) = r := by
  rw [responseOf_self _ hk, State.transact_encode h]

end

/-! ## CONSTRUCT (R69, R113, R190) -/

theorem step_unfinished_reset {s : State} {beats : List Beat} {rest : List PortEvent}
    (h : s.port = (beats.map fun v => PortEvent.beat v false) ++ PortEvent.reset :: rest) :
    step s = .next (s.withPort rest).applyReset := by
  simp [step, h, fetch_unfinished_reset]

/-- Settles O53: all three ways lead to the reset registers, and none reaches another position. -/
theorem constructGivesDefaultEngine : Obligations.ConstructGivesDefaultEngine := by
  intro sys k s hk
  refine ⟨construct_self hk, ?_, ?_, fun j hj => ⟨construct_of_ne sys hj, sendTo_of_ne sys _ hj⟩⟩
  · intro beats hbeats
    refine ⟨_, step_unfinished_reset (beats := beats) (rest := []) ?_, construct_self hk⟩
    rw [State.withPort_port, hbeats]
  · rw [State.resetOf_engine, ← Engine.seededDefault_eq_construct]
    exact sendTo_encode hk (exec_seedd_nil _)

/-- A loading command that passes its checks leaves the same instance, whether a reset came before it or not. -/
theorem transact_load_resetNow {s : State} {i : Instr}
    (hi : i.command = .seed ∨ i.command = .seedd ∨ i.command = .seedq ∨ i.command = .deser)
    (hwf : i.wellFormed s.engine.width = true) :
    s.resetNow.transact (encode i) = s.transact (encode i) := by
  obtain ⟨e, r, hexec⟩ := exec_load_of_width hi hwf
  rw [State.transact_encode (hexec (s.withPort []) rfl),
    State.transact_encode (hexec (s.resetNow.withPort []) (by simp))]
  rfl

theorem constructThen_load {sys : System} {k : Nat} {s : State} {i : Instr} (hk : sys[k]? = some s)
    (hi : i.command = .seed ∨ i.command = .seedd ∨ i.command = .seedq ∨ i.command = .deser)
    (hwf : i.wellFormed s.engine.width = true) : constructThen sys k i = sendTo sys k (encode i) := by
  rw [constructThen, sendTo_eq_set _ (construct_self hk), construct_eq_set hk, List.set_set,
    transact_load_resetNow hi hwf, sendTo_eq_set _ hk]

/-- Settles O54: SEED is one of the loading commands. -/
theorem constructThenLoadIgnoresReset : Obligations.ConstructThenLoadIgnoresReset := by
  intro sys k s hk
  refine ⟨fun i hi hwf => constructThen_load hk hi hwf, fun seed => ?_⟩
  have hagree : constructSeed sys k seed = reseed sys k seed := constructThen_load hk (.inl rfl) rfl
  refine ⟨?_, hagree.symm⟩
  rw [hagree]
  exact sendTo_encode hk (exec_seed_singleton seed _)

/-! ## The words of one engine in another of its width -/

/-- The four words as SER answers them. -/
def Engine.beats : Engine → Words 64
  | .engine64 s => s
  | .engine32 s => ⟨zext64 s.s0, zext64 s.s1, zext64 s.s2, zext64 s.s3⟩

theorem Engine.words_eq_beats (e : Engine) : e.words = [e.beats.s0, e.beats.s1, e.beats.s2, e.beats.s3] := by
  cases e <;> simp [Engine.words, Engine.beats, muxBeats_eq]

/-- Zero-extended words pass DESER's range check (R63). -/
theorem Engine.fitsWords_beats {e e' : Engine} (h : e.width = e'.width) : e'.fitsWords e.beats = true := by
  have hlt := e.words_lt
  simp only [Engine.words_eq_beats, List.forall_mem_cons] at hlt
  simp [Engine.fitsWords, Engine.fitsWord, ← h, hlt]

theorem Engine.loaded_beats {e e' : Engine} (h : e.width = e'.width) : e'.loaded e.beats = e := by
  cases e <;> cases e' <;> simp_all [Engine.loaded, Engine.beats, Engine.width]

/-- CMPEQ compares with the words that SER answers (46_adapter.md R160). -/
theorem Engine.equalsWords_iff {e : Engine} {v : Words 64} : e.equalsWords v = true ↔ v = e.beats := by
  obtain ⟨v0, v1, v2, v3⟩ := v
  cases e with
  | engine64 s =>
    obtain ⟨s0, s1, s2, s3⟩ := s
    simp [Engine.equalsWords, Engine.beats, and_assoc]
  | engine32 s => simp [Engine.equalsWords, Engine.beats, and_assoc]

/-- Loading tells engines of one width apart by their words. -/
theorem Engine.beats_inj {e e' : Engine} (h : e.width = e'.width) : e.beats = e'.beats ↔ e = e' := by
  refine ⟨fun hb => ?_, congrArg Engine.beats⟩
  rw [← Engine.loaded_beats h, hb, Engine.loaded_beats rfl]

/-- DESER of the words of an engine of the same width loads that engine. -/
theorem exec_deser_words {e : Engine} {s : State} (h : e.width = s.engine.width) :
    exec (.deser e.words) s = .next (s.answered e [0x0900]) := by
  rw [Engine.words_eq_beats, exec_deser_of_fitsWords (Engine.fitsWords_beats h), Engine.loaded_beats h]

theorem exec_ser_nil (s : State) :
    exec (.ser []) s = .next (s.answered s.engine (0x0800 :: s.engine.words)) := rfl

/-- CMPEQ of the words of an engine of the same width tells whether the two are equal. -/
theorem exec_cmpeq_words {e : Engine} {s : State} (h : e.width = s.engine.width) :
    exec (.cmpeq e.words) s =
      .next (s.answered s.engine [0x0A00, if s.engine = e then 1 else 0]) := by
  have hequal : s.engine.equalsWords e.beats = true ↔ s.engine = e := by
    rw [Engine.equalsWords_iff, Engine.beats_inj h, eq_comm]
  have htruth : truthBeat (s.engine.equalsWords e.beats) = if s.engine = e then 1 else 0 :=
    if_congr hequal rfl rfl
  rw [Engine.words_eq_beats, ← htruth]
  rfl

/-! ## SPAWN, COPY and EQ (R69) -/

section
variable {sys : System} {a b : Nat} {sa sb : State} (hab : a ≠ b) (ha : sys[a]? = some sa)
  (hb : sys[b]? = some sb) (hw : sa.engine.width = sb.engine.width)
include hab ha hb

/-- A command that keeps the registers and answers the words of `e` loads `e` into the other instance. -/
theorem forward_words {i : Instr} {header : Beat} {e : Engine} (he : e.width = sb.engine.width)
    (h : exec i (sa.withPort []) = .next ((sa.withPort []).answered sa.engine (header :: e.words))) :
    (forward sys i a b)[a]?.map (·.engine) = some sa.engine ∧
      (forward sys i a b)[b]?.map (·.engine) = some e := by
  have hdata : responseData (responseOf sys a (encode i)) = e.words := by
    rw [responseOf_encode ha h]
    rfl
  have hb' : (sendTo sys a (encode i))[b]? = some sb := (sendTo_of_ne sys _ hab.symm).trans hb
  rw [forward, hdata]
  constructor
  · rw [sendTo_of_ne _ _ hab, sendTo_encode ha h]
    rfl
  · rw [sendTo_encode hb' (exec_deser_words he)]
    rfl

include hw

theorem copyEngine_engines :
    (copyEngine sys a b)[a]?.map (·.engine) = some sa.engine ∧
      (copyEngine sys a b)[b]?.map (·.engine) = some sa.engine :=
  forward_words hab ha hb hw (exec_ser_nil _)

theorem equalEngines_answer :
    (equalEngines sys a b).2 = [if sa.engine = sb.engine then 1 else 0] := by
  have hdata : responseData (responseOf sys b (encode (.ser []))) = sb.engine.words := by
    rw [responseOf_encode hb (exec_ser_nil _)]
    rfl
  have ha' : (sendTo sys b (encode (.ser [])))[a]? = some sa := (sendTo_of_ne sys _ hab).trans ha
  simp only [equalEngines, hdata]
  rw [responseOf_encode ha' (exec_cmpeq_words hw.symm)]
  rfl

end

/-- Settles O50: JUMP and LJUMP answer the words of the derived engine, which has the source's width. -/
theorem spawnLoadsDerivedEngine : Obligations.SpawnLoadsDerivedEngine := by
  intro sys a b sa sb hab ha hb hw
  obtain ⟨hsource, htarget⟩ := forward_words hab ha hb (sa.engine.width_jumped.trans hw) (exec_jump_nil _)
  obtain ⟨hsource', htarget'⟩ :=
    forward_words hab ha hb (sa.engine.width_longJumped.trans hw) (exec_ljump_nil _)
  exact ⟨hsource, htarget, hsource', htarget'⟩

/-- Settles O51: SER answers the words that DESER loads and CMPEQ compares with. -/
theorem copyAndEqAgree : Obligations.CopyAndEqAgree := by
  intro sys a b sa sb hab ha hb hw
  obtain ⟨hsource, htarget⟩ := copyEngine_engines hab ha hb hw
  exact ⟨hsource, htarget, equalEngines_answer hab ha hb hw⟩

/-! ## Decimal numerals (45_serialization.md R142, R143) -/

theorem toNat_digitChar {d : Nat} (h : d < 10) : (digitChar d).toNat = 48 + d := by
  interval_cases d <;> rfl

theorem isDigitChar_digitChar {d : Nat} (h : d < 10) : isDigitChar (digitChar d) = true := by
  interval_cases d <;> rfl

theorem decimalDigits_ne_nil (fuel v : Nat) : decimalDigits fuel v ≠ [] := by
  cases fuel with
  | zero => simp [decimalDigits]
  | succ fuel =>
    simp only [decimalDigits]
    split <;> simp

theorem isDigitChar_of_mem_decimalDigits {fuel v : Nat} {c : Char} (h : c ∈ decimalDigits fuel v) :
    isDigitChar c = true := by
  have hlast : isDigitChar (digitChar (v % 10)) = true := isDigitChar_digitChar (Nat.mod_lt v (by decide))
  induction fuel generalizing v with
  | zero =>
    obtain rfl := List.mem_singleton.1 h
    exact hlast
  | succ fuel ih =>
    rw [decimalDigits] at h
    split at h
    case isTrue hv =>
      obtain rfl := List.mem_singleton.1 h
      exact isDigitChar_digitChar hv
    case isFalse =>
      obtain h | h := List.mem_append.1 h
      · exact ih h (isDigitChar_digitChar (Nat.mod_lt _ (by decide)))
      · obtain rfl := List.mem_singleton.1 h
        exact hlast

theorem decimalValue_append_digit (token : List Char) {d : Nat} (h : d < 10) :
    decimalValue (token ++ [digitChar d]) = 10 * decimalValue token + d := by
  simp [decimalValue, toNat_digitChar h]

/-- `fuel + 1` digits suffice for a value below `10 ^ (fuel + 1)`. -/
theorem decimalValue_decimalDigits {fuel v : Nat} (h : v < 10 ^ (fuel + 1)) :
    decimalValue (decimalDigits fuel v) = v := by
  have hsingle : ∀ d < 10, decimalValue [digitChar d] = d := fun d hd => by
    simpa [decimalValue] using decimalValue_append_digit [] hd
  induction fuel generalizing v with
  | zero =>
    rw [decimalDigits, hsingle _ (Nat.mod_lt v (by decide))]
    omega
  | succ fuel ih =>
    rw [decimalDigits]
    split
    case isTrue hv => exact hsingle v hv
    case isFalse =>
      have hdiv : v / 10 < 10 ^ (fuel + 1) := by
        rw [pow_succ] at h
        omega
      rw [decimalValue_append_digit _ (Nat.mod_lt v (by decide)), ih hdiv]
      omega

theorem decimalText_ne_nil (v : Nat) : decimalText v ≠ [] := decimalDigits_ne_nil 19 v

theorem isDigitChar_of_mem_decimalText {v : Nat} {c : Char} (h : c ∈ decimalText v) :
    isDigitChar c = true :=
  isDigitChar_of_mem_decimalDigits h

theorem tokenValue_decimalText {n v : Nat} (h : v < 10 ^ 20) (hn : v < 2 ^ n) :
    tokenValue n (decimalText v) = some v := by
  have hvalue : decimalValue (decimalText v) = v := decimalValue_decimalDigits h
  simp only [tokenValue, hvalue]
  exact if_pos ⟨decimalText_ne_nil v, List.all_eq_true.2 fun c => isDigitChar_of_mem_decimalText, hn⟩

/-- A token of digits has no `x`, so it is read as a decimal numeral. -/
theorem numeralValue_of_digits {token : List Char} (h : ∀ c ∈ token, isDigitChar c = true) :
    numeralValue token = (tokenValue 64 token).map (BitVec.ofNat 64) := by
  unfold numeralValue
  split
  · exact absurd (h 'x' (by simp)) (by decide)
  · rfl

theorem numeralValue_decimalText (b : Beat) : numeralValue (decimalText b.toNat) = some b := by
  have hb : b.toNat < 10 ^ 20 := b.isLt.trans (by decide)
  rw [numeralValue_of_digits fun c => isDigitChar_of_mem_decimalText, tokenValue_decimalText hb b.isLt]
  simp

theorem isSpaceChar_of_mem_space : ∀ c ∈ [' '], isSpaceChar c = true := by
  simp [isSpaceChar]

/-! ## Text without whitespace around it -/

/-- A text that begins and ends with characters that are no whitespace, and so is not empty. -/
def Trimmed (text : List Char) : Prop :=
  (∃ c, text.head? = some c ∧ isSpaceChar c = false) ∧ ∃ c, text.getLast? = some c ∧ isSpaceChar c = false

theorem Trimmed.ne_nil {text : List Char} (h : Trimmed text) : text ≠ [] := by
  rintro rfl
  obtain ⟨⟨c, hc, -⟩, -⟩ := h
  cases hc

/-- A name, a mnemonic or a numeral is trimmed. -/
theorem trimmed_of_no_space {text : List Char} (hne : text ≠ []) (h : ∀ c ∈ text, isSpaceChar c = false) :
    Trimmed text :=
  ⟨⟨_, List.head?_eq_some_head hne, h _ (List.head_mem hne)⟩,
    ⟨_, List.getLast?_eq_some_getLast hne, h _ (List.getLast_mem hne)⟩⟩

theorem Trimmed.append {a b : List Char} (ha : Trimmed a) (hb : Trimmed b) (between : List Char) :
    Trimmed (a ++ between ++ b) := by
  obtain ⟨⟨c, hc, hcs⟩, -⟩ := ha
  obtain ⟨-, d, hd, hds⟩ := hb
  exact ⟨⟨c, by simp [hc], hcs⟩, ⟨d, by simp [hd], hds⟩⟩

theorem dropWhile_of_head_false {p : Char → Bool} {text : List Char} {c : Char} (h : text.head? = some c)
    (hc : p c = false) : text.dropWhile p = text := by
  cases text with
  | nil => rfl
  | cons d rest =>
    obtain rfl : d = c := by simpa using h
    simp [hc]

/-- Trimming removes whitespace before a trimmed text, and nothing of it. -/
theorem trimSpaces_append {text : List Char} (h : Trimmed text) {space : List Char}
    (hspace : ∀ c ∈ space, isSpaceChar c = true) : trimSpaces (space ++ text) = text := by
  obtain ⟨⟨c, hc, hcs⟩, d, hd, hds⟩ := h
  rw [trimSpaces, List.dropWhile_append_of_pos hspace, dropWhile_of_head_false hc hcs,
    dropWhile_of_head_false (by rwa [List.head?_reverse]) hds, List.reverse_reverse]

theorem trimSpaces_of_trimmed {text : List Char} (h : Trimmed text) : trimSpaces text = text :=
  trimSpaces_append (space := []) h (by simp)

/-! ## The payload of a line -/

theorem splitAtChar_ne_nil (sep : Char) (text : List Char) : splitAtChar sep text ≠ [] := by
  induction text with
  | nil => simp [splitAtChar]
  | cons c rest ih =>
    simp only [splitAtChar]
    split
    · simp
    · split <;> simp

theorem splitAtChar_cons_sep (sep : Char) (rest : List Char) :
    splitAtChar sep (sep :: rest) = [] :: splitAtChar sep rest := by
  cases h : splitAtChar sep rest with
  | nil => exact absurd h (splitAtChar_ne_nil sep rest)
  | cons piece pieces => simp [splitAtChar, h]

theorem splitAtChar_cons_of_ne {sep c : Char} (hc : c ≠ sep) {rest piece : List Char}
    {pieces : List (List Char)} (h : splitAtChar sep rest = piece :: pieces) :
    splitAtChar sep (c :: rest) = (c :: piece) :: pieces := by
  simp [splitAtChar, h, hc]

theorem splitAtChar_append_sep {sep : Char} {piece : List Char} (h : sep ∉ piece) (rest : List Char) :
    splitAtChar sep (piece ++ sep :: rest) = piece :: splitAtChar sep rest := by
  induction piece with
  | nil => exact splitAtChar_cons_sep sep rest
  | cons c piece ih =>
    obtain ⟨hc, hpiece⟩ := List.ne_and_not_mem_of_not_mem_cons h
    exact splitAtChar_cons_of_ne (Ne.symm hc) (ih hpiece)

theorem splitAtChar_of_not_mem {sep : Char} {text : List Char} (h : sep ∉ text) :
    splitAtChar sep text = [text] := by
  induction text with
  | nil => rfl
  | cons c rest ih =>
    obtain ⟨hc, hrest⟩ := List.ne_and_not_mem_of_not_mem_cons h
    exact splitAtChar_cons_of_ne (Ne.symm hc) (ih hrest)

theorem isSpaceChar_of_isDigitChar {c : Char} (h : isDigitChar c = true) : isSpaceChar c = false := by
  simp only [isDigitChar, Bool.and_eq_true, decide_eq_true_eq] at h
  simp only [isSpaceChar, Bool.or_eq_false_iff, Bool.and_eq_false_iff, beq_eq_false_iff_ne, decide_eq_false_iff_not]
  omega

theorem trimmed_decimalText (v : Nat) : Trimmed (decimalText v) :=
  trimmed_of_no_space (decimalText_ne_nil v) fun _ hc =>
    isSpaceChar_of_isDigitChar (isDigitChar_of_mem_decimalText hc)

/-- Digits and whitespace hold no comma. -/
theorem comma_not_mem_space_decimalText {space : List Char} (hspace : ∀ c ∈ space, isSpaceChar c = true)
    (v : Nat) : ',' ∉ space ++ decimalText v := by
  rw [List.mem_append]
  rintro (h | h)
  · exact absurd (hspace _ h) (by decide)
  · exact absurd (isDigitChar_of_mem_decimalText h) (by decide)

theorem numeralList_cons {piece : List Char} {pieces : List (List Char)} {b : Beat} {bs : List Beat}
    (hb : numeralValue (trimSpaces piece) = some b) (hbs : numeralList pieces = some bs) :
    numeralList (piece :: pieces) = some (b :: bs) := by
  simp [numeralList, hb, hbs]

/-- The whitespace that the writer puts after a comma is trimmed from the next piece. -/
theorem numeralList_beatsText (b : Beat) (bs : List Beat) {space : List Char}
    (hspace : ∀ c ∈ space, isSpaceChar c = true) :
    numeralList (splitAtChar ',' (space ++ beatsText (b :: bs))) = some (b :: bs) := by
  induction bs generalizing b space with
  | nil =>
    rw [beatsText, splitAtChar_of_not_mem (comma_not_mem_space_decimalText hspace _)]
    refine numeralList_cons ?_ rfl
    rw [trimSpaces_append (trimmed_decimalText _) hspace, numeralValue_decimalText]
  | cons u us ih =>
    rw [beatsText, ← List.append_assoc,
      splitAtChar_append_sep (comma_not_mem_space_decimalText hspace _)]
    refine numeralList_cons ?_ (ih u isSpaceChar_of_mem_space)
    rw [trimSpaces_append (trimmed_decimalText _) hspace, numeralValue_decimalText]

theorem trimmed_beatsText (b : Beat) (bs : List Beat) : Trimmed (beatsText (b :: bs)) := by
  induction bs generalizing b with
  | nil => exact trimmed_decimalText b.toNat
  | cons u us ih => simpa [beatsText] using (trimmed_decimalText b.toNat).append (ih u) [',', ' ']

theorem payloadOfText_space_beatsText (b : Beat) (bs : List Beat) :
    payloadOfText (' ' :: beatsText (b :: bs)) = some (b :: bs) := by
  have htrim : trimSpaces (' ' :: beatsText (b :: bs)) = beatsText (b :: bs) :=
    trimSpaces_append (trimmed_beatsText b bs) isSpaceChar_of_mem_space
  have hlist := numeralList_beatsText b bs (space := []) (by simp)
  unfold payloadOfText
  rw [htrim]
  split
  · exact absurd ‹_› (trimmed_beatsText b bs).ne_nil
  · rename_i hcons
    rwa [List.nil_append, hcons] at hlist

/-! ## A command and its line -/

theorem isSpaceChar_of_mem_mnemonicText {c : Command} : ∀ x ∈ mnemonicText c, isSpaceChar x = false := by
  have hall : ((mnemonicText c).all fun x => !isSpaceChar x) = true := by cases c <;> rfl
  simpa using hall

theorem commandOfText_mnemonicText (c : Command) : commandOfText (mnemonicText c) = some c := by
  cases c <;> decide

theorem trimmed_mnemonicText (c : Command) : Trimmed (mnemonicText c) :=
  trimmed_of_no_space (by cases c <;> decide) isSpaceChar_of_mem_mnemonicText

/-- What a line has after its mnemonic. -/
def operandText : List Beat → List Char
  | [] => []
  | b :: bs => ' ' :: beatsText (b :: bs)

/-- The line is the mnemonic and the operands. -/
theorem lineOf_eq (i : Instr) : lineOf i = mnemonicText i.command ++ operandText i.payload := by
  rw [lineOf]
  cases i.payload <;> simp [operandText]

theorem payloadOfText_operandText (p : List Beat) : payloadOfText (operandText p) = some p := by
  cases p with
  | nil => rfl
  | cons b bs => exact payloadOfText_space_beatsText b bs

theorem trimmed_lineOf (i : Instr) : Trimmed (lineOf i) := by
  rw [lineOf_eq]
  cases i.payload with
  | nil => simpa [operandText] using trimmed_mnemonicText i.command
  | cons b bs => simpa [operandText] using (trimmed_mnemonicText i.command).append (trimmed_beatsText b bs) [' ']

/-- The mnemonic is the run of characters up to the first whitespace. -/
theorem takeWhile_dropWhile_lineOf (i : Instr) :
    (lineOf i).takeWhile (fun c => !isSpaceChar c) = mnemonicText i.command ∧
      (lineOf i).dropWhile (fun c => !isSpaceChar c) = operandText i.payload := by
  have hmn : ∀ c ∈ mnemonicText i.command, (!isSpaceChar c) = true := by
    simpa using isSpaceChar_of_mem_mnemonicText
  rw [lineOf_eq, List.takeWhile_append_of_pos hmn, List.dropWhile_append_of_pos hmn]
  cases i.payload <;> simp [operandText, isSpaceChar]

theorem parseCommand_space_lineOf (i : Instr) {space : List Char} (hspace : ∀ c ∈ space, isSpaceChar c = true) :
    parseCommand (space ++ lineOf i) = some i := by
  obtain ⟨htake, hdrop⟩ := takeWhile_dropWhile_lineOf i
  simp [parseCommand, trimSpaces_append (trimmed_lineOf i) hspace, htake, hdrop, commandOfText_mnemonicText,
    payloadOfText_operandText]

/-! ## Names and comments -/

/-- A character that marks neither a name nor a comment (R68). -/
def PlainChar (c : Char) : Prop := c ≠ ':' ∧ c ≠ ';'

theorem plainChar_of_mem_mnemonicText {c : Command} : ∀ x ∈ mnemonicText c, PlainChar x := by
  have hall : ((mnemonicText c).all fun x => decide (x ≠ ':' ∧ x ≠ ';')) = true := by cases c <;> rfl
  simpa [PlainChar] using hall

theorem plainChar_of_isDigitChar {c : Char} (h : isDigitChar c = true) : PlainChar c := by
  constructor <;> rintro rfl <;> exact absurd h (by decide)

theorem plainChar_of_mem_beatsText {p : List Beat} {c : Char} (h : c ∈ beatsText p) : PlainChar c := by
  fun_induction beatsText p with
  | case1 => cases h
  | case2 b => exact plainChar_of_isDigitChar (isDigitChar_of_mem_decimalText h)
  | case3 b u rest ih =>
    simp only [List.mem_append, List.mem_cons] at h
    obtain h | rfl | rfl | h := h
    · exact plainChar_of_isDigitChar (isDigitChar_of_mem_decimalText h)
    · exact ⟨by decide, by decide⟩
    · exact ⟨by decide, by decide⟩
    · exact ih h

theorem plainChar_of_mem_lineOf {i : Instr} {c : Char} (h : c ∈ lineOf i) : PlainChar c := by
  rw [lineOf_eq, List.mem_append] at h
  obtain h | h := h
  · exact plainChar_of_mem_mnemonicText c h
  · cases hp : i.payload with
    | nil => simp [hp, operandText] at h
    | cons b bs =>
      rw [hp, operandText, List.mem_cons] at h
      obtain rfl | h := h
      · exact ⟨by decide, by decide⟩
      · exact plainChar_of_mem_beatsText h

/-- Without a comment and without a colon the line is the command. -/
theorem parseLine_of_plain {text : List Char} {i : Instr} (htrim : Trimmed text)
    (hplain : ∀ c ∈ text, PlainChar c) (hi : parseCommand text = some i) :
    parseLine text = some { target := none, instr := some i } := by
  have hcomment : text.takeWhile (fun c => c ≠ ';') = text :=
    List.takeWhile_eq_self_iff.2 fun c hc => by simpa using (hplain c hc).2
  have hcolon : text.dropWhile (fun c => c ≠ ':') = [] :=
    List.dropWhile_eq_nil_iff.2 fun c hc => by simpa using (hplain c hc).1
  simp only [parseLine, hcomment, trimSpaces_of_trimmed htrim, htrim.ne_nil, hcolon, hi, if_false]

/-- Without a comment the line is a name up to its first colon, and the command after it. -/
theorem parseLine_of_named {name rest : List Char} {i : Instr} (hname : Trimmed name) (hrest : Trimmed rest)
    (hnamePlain : ∀ c ∈ name, PlainChar c) (hrestPlain : ∀ c ∈ rest, c ≠ ';')
    (hi : parseCommand (' ' :: rest) = some i) :
    parseLine (name ++ ':' :: ' ' :: rest) = some { target := some name, instr := some i } := by
  have htrim : Trimmed (name ++ ':' :: ' ' :: rest) := by simpa using hname.append hrest [':', ' ']
  have hcomment : (name ++ ':' :: ' ' :: rest).takeWhile (fun c => c ≠ ';') = name ++ ':' :: ' ' :: rest := by
    refine List.takeWhile_eq_self_iff.2 fun c hc => ?_
    simp only [List.mem_append, List.mem_cons] at hc
    obtain hc | rfl | rfl | hc := hc
    · simpa using (hnamePlain c hc).2
    · rfl
    · rfl
    · simpa using hrestPlain c hc
  have hpos : ∀ c ∈ name, decide (c ≠ ':') = true := fun c hc => by simpa using (hnamePlain c hc).1
  have htake : (name ++ ':' :: ' ' :: rest).takeWhile (fun c => c ≠ ':') = name := by
    rw [List.takeWhile_append_of_pos hpos]
    simp
  have hdrop : (name ++ ':' :: ' ' :: rest).dropWhile (fun c => c ≠ ':') = ':' :: ' ' :: rest := by
    rw [List.dropWhile_append_of_pos hpos]
    simp
  simp only [parseLine, hcomment, trimSpaces_of_trimmed htrim, htrim.ne_nil, hdrop, htake, hi,
    trimSpaces_of_trimmed hname, if_false]

/-- Settles O40: the line is trimmed, its characters mark neither a name nor a comment, and its mnemonic and
numerals read back; a name is trimmed, being without whitespace. -/
theorem assemblerLineReadsBack : Obligations.AssemblerLineReadsBack := by
  intro i
  refine ⟨parseLine_of_plain (trimmed_lineOf i) (fun c => plainChar_of_mem_lineOf)
    (parseCommand_space_lineOf i (space := []) (by simp)), fun name hne hname => ?_⟩
  have hcommand : parseCommand ([' '] ++ lineOf i) = some i :=
    parseCommand_space_lineOf i isSpaceChar_of_mem_space
  exact parseLine_of_named (trimmed_of_no_space hne fun c hc => (hname c hc).1) (trimmed_lineOf i)
    (fun c hc => (hname c hc).2) (fun c hc => (plainChar_of_mem_lineOf hc).2)
    hcommand

end Sys2Proof.Machine
end

section
/-! PROOFS of the statements about 40_seed_expander.md: the closed form of the expansion (R92) with the constants
(R91), and its non-degeneracy (R93). -/

namespace Sys2Proof.Machine

/-! ## The closed form of the expansion -/

/-- Increment `k` times or add `k × GAMMA` at once (R92). -/
theorem expandSeed_closed {n : Nat} (p : Params n) (seed : BitVec n) :
    expandSeed p seed =
      ⟨mixWord p (seed + 1 * p.gamma), mixWord p (seed + 2 * p.gamma),
        mixWord p (seed + 3 * p.gamma), mixWord p (seed + 4 * p.gamma)⟩ := by
  have h2 : seed + p.gamma + p.gamma = seed + 2 * p.gamma := by ring
  have h3 : seed + 2 * p.gamma + p.gamma = seed + 3 * p.gamma := by ring
  have h4 : seed + 3 * p.gamma + p.gamma = seed + 4 * p.gamma := by ring
  simp only [expandSeed, h2, h3, h4, one_mul]

/-- Word `i` is the mix of accumulator `i + 1`. -/
theorem muxWord_expandSeed {n : Nat} (p : Params n) (seed : BitVec n) (i : Fin 4) :
    muxWord (expandSeed p seed) i = mixWord p (seed + BitVec.ofNat n (i.val + 1) * p.gamma) := by
  rw [expandSeed_closed]
  fin_cases i <;> rfl

/-! ## At most one word is zero -/

theorem muxWord_expandSeed_eq_zero_iff {n : Nat} {p : Params n} (hp : LegalMixer p) {seed : BitVec n}
    {i : Fin 4} :
    muxWord (expandSeed p seed) i = 0 ↔ seed = -(BitVec.ofNat n (i.val + 1) * p.gamma) := by
  rw [muxWord_expandSeed, mixWord_eq_zero_iff hp]
  exact add_eq_zero_iff_eq_neg

/-- An odd factor cancels. -/
theorem mul_odd_cancel {n : Nat} {a b m : BitVec n} (hm : m.toNat % 2 = 1) : a * m = b * m ↔ a = b := by
  refine ⟨fun h => sub_eq_zero.1 ((mul_odd_eq_zero_iff hm).1 ?_), congrArg (· * m)⟩
  rw [sub_mul]
  exact sub_eq_zero.2 h

/-- The four accumulators differ, since the shifts leave a word at least two bits. -/
theorem eq_of_muxWord_expandSeed_eq_zero {n : Nat} {p : Params n} (hp : LegalMixer p) {seed : BitVec n}
    {i j : Fin 4} (hi : muxWord (expandSeed p seed) i = 0) (hj : muxWord (expandSeed p seed) j = 0) :
    i = j := by
  rw [muxWord_expandSeed_eq_zero_iff hp] at hi hj
  obtain ⟨hgamma, -, -, ⟨hx, hxn⟩, -⟩ := hp
  have hcount : BitVec.ofNat n (i.val + 1) = BitVec.ofNat n (j.val + 1) :=
    (mul_odd_cancel hgamma).1 (neg_inj.1 (hi.symm.trans hj))
  have hfour : 2 ^ 2 ≤ 2 ^ n := Nat.pow_le_pow_right (by decide) (by omega)
  have hmod : i.val ≡ j.val [MOD 2 ^ n] :=
    Nat.ModEq.add_right_cancel' 1 (by simpa [Nat.ModEq] using congrArg BitVec.toNat hcount)
  exact Fin.ext (hmod.eq_of_lt_of_lt (by omega) (by omega))

/-- Settles O24: word `i` is zero for the seed that makes accumulator `i + 1` zero, and no two accumulators are
zero together. -/
theorem seedingNeverGivesZeroState : Obligations.SeedingNeverGivesZeroState :=
  ⟨fun _ _ hp seed => ⟨fun _ => muxWord_expandSeed_eq_zero_iff hp,
    fun _ _ => eq_of_muxWord_expandSeed_eq_zero hp, expandSeed_ne_zeroWords hp seed⟩,
    legalMixer_params64, legalMixer_params32⟩

/-! ## SEED -/

/-- Format `S` asks for exactly one beat (30_encoding.md R62, 60_exceptions.md R174). -/
theorem exec_seed_lengthError {s : State} {payload : List Beat} (h : payload.length ≠ 1) :
    exec (.seed payload) s = .next (s.answered s.engine [0x0104]) := by
  rw [exec, execSeed, scalarOperand_eq_none.2 h]
  rfl

/-- Settles O21: one beat is expanded with the parameters of the width, whose constants are the written ones; any
other count fails the length check. -/
theorem seedExpandsIntoEngine : Obligations.SeedExpandsIntoEngine := by
  refine ⟨fun s w x hs => ?_, fun s w x hs => ?_, fun s payload => exec_seed_lengthError⟩
  · rw [exec_seed_singleton, hs, Engine.seeded, expandSeed_closed, truncW_self]
    rfl
  · rw [exec_seed_singleton, hs, Engine.seeded, expandSeed_closed]
    rfl

end Sys2Proof.Machine
end

section
/-! PROOFS of the statements about 41_next.md: the output and the update in closed form (R100, R101), NEXT (R102),
and the update as a linear bijection (R103). -/

namespace Sys2Proof.Machine

/-! ## The update is linear -/

/-- The halves of a rotation have no bit in common. -/
theorem rotlW_eq_xor {n : Nat} (x : BitVec n) (k : Nat) : rotlW x k = shlW x k ^^^ shrW x (n - k) :=
  or_eq_xor_of_and_eq_zero (shlW_and_shrW_eq_zero x)

theorem rotlW_xor {n : Nat} (a b : BitVec n) (k : Nat) : rotlW (a ^^^ b) k = rotlW a k ^^^ rotlW b k := by
  simp only [rotlW_eq_xor, shlW_xor, shrW_xor]
  ac_rfl

theorem stepWords_xorWords {n : Nat} (p : Params n) (a b : Words n) :
    stepWords p (xorWords a b) = xorWords (stepWords p a) (stepWords p b) := by
  simp only [stepWords_closed, xorWords, shlW_xor, rotlW_xor, Words.mk.injEq]
  refine ⟨?_, ?_, ?_, ?_⟩ <;> ac_rfl

/-- Settles O18: xors regroup, and shifts and rotations distribute over them. -/
theorem stepIsLinear : Obligations.StepIsLinear := fun _ p =>
  ⟨stepWords_xorWords p, stepWords_zeroWords p, outWord_zeroWords p⟩

/-! ## The update is a bijection -/

theorem xorWords_eq_zeroWords_iff {n : Nat} {a b : Words n} : xorWords a b = zeroWords n ↔ a = b := by
  obtain ⟨a0, a1, a2, a3⟩ := a
  obtain ⟨b0, b1, b2, b3⟩ := b
  simp [eq_zeroWords_iff, xorWords]

/-- A linear map that leads to zero from zero alone takes no two states to one. -/
theorem stepWords_injective {n : Nat} {p : Params n} (hA : 0 < p.shiftA) (hB : p.rotB < n) :
    Function.Injective (stepWords p) := by
  intro a b h
  rw [← xorWords_eq_zeroWords_iff, ← stepWords_xorWords, stepWords_eq_zeroWords_iff hA hB,
    xorWords_eq_zeroWords_iff] at h
  exact h

theorem finite_words (n : Nat) : Finite (Words n) := by
  refine Finite.of_injective (fun s : Words n => (s.s0, s.s1, s.s2, s.s3)) ?_
  rintro ⟨a0, a1, a2, a3⟩ ⟨b0, b1, b2, b3⟩ h
  simpa using h

/-- On finitely many states, one successor each and none shared makes every state a successor. -/
theorem stepWords_bijective {n : Nat} {p : Params n} (hA : 0 < p.shiftA) (hB : p.rotB < n) :
    Function.Bijective (stepWords p) :=
  have := finite_words n
  Finite.injective_iff_bijective.1 (stepWords_injective hA hB)

/-- Settles O19: both widths shift by a positive amount and rotate by less than the width. -/
theorem stepIsBijective : Obligations.StepIsBijective :=
  ⟨stepWords_bijective (by decide) (by decide), stepWords_bijective (by decide) (by decide)⟩

/-! ## NEXT -/

/-- The output with the library's rotation, for the amounts the rule allows (R100). -/
theorem outWord_eq_rotateLeft {n : Nat} {p : Params n} (hR : p.rotR < n) (s : Words n) :
    outWord p s = (s.s0 + s.s3).rotateLeft p.rotR + s.s0 := by
  rw [outWord, rotlW_eq_rotateLeft _ _ hR]

/-- The update with the library's shift and rotation, for the amounts the rule allows (R101). -/
theorem stepWords_eq_rotateLeft {n : Nat} {p : Params n} (hB : p.rotB < n) (s : Words n) :
    stepWords p s =
      ⟨s.s0 ^^^ s.s1 ^^^ s.s3, s.s0 ^^^ s.s1 ^^^ s.s2, s.s0 ^^^ s.s2 ^^^ (s.s1 <<< p.shiftA),
        (s.s1 ^^^ s.s3).rotateLeft p.rotB⟩ := by
  rw [stepWords_closed, rotlW_eq_rotateLeft _ _ hB, shlW]

/-- A payload that has not the length of the format fails step 3 of R67, whatever step 4 would say. -/
theorem exec_ofCommand_of_length_ne_need {c : Command} {payload : List Beat} {s : State}
    (h : payload.length ≠ c.format.need s.engine.width) :
    exec (Instr.ofCommand c payload) s =
      .next (s.answered s.engine [responseHeader (failureStatus c) c.opcode]) := by
  have hwf : (Instr.ofCommand c payload).wellFormed s.engine.width = false := by
    simp [Instr.wellFormed, Instr.lengthOk, h]
  rw [exec_of_not_wellFormed hwf, State.raise_eq_answered, Instr.command_ofCommand]

/-- Settles O15: both formulas with the constants of the width; any payload fails the length check. -/
theorem nextAnswersOutputAndSteps : Obligations.NextAnswersOutputAndSteps := by
  refine ⟨fun s o0 o1 o2 o3 hs => ?_, fun s o0 o1 o2 o3 hs => ?_, fun s payload h => ?_⟩
  · rw [exec_next_nil, hs, Engine.stepped, Engine.output, stepTimes_one, stepWords_eq_rotateLeft (by decide),
      outWord_eq_rotateLeft (by decide), zext64_self]
    rfl
  · rw [exec_next_nil, hs, Engine.stepped, Engine.output, stepTimes_one, stepWords_eq_rotateLeft (by decide),
      outWord_eq_rotateLeft (by decide)]
    rfl
  · exact exec_ofCommand_of_length_ne_need (c := .next) h

end Sys2Proof.Machine
end

section
/-! PROOFS of the statements about 42_seeding.md: SEEDD (R111). -/

namespace Sys2Proof.Machine

/-! ## SEEDD -/

/-- SEEDD restores the state of reset (R29, R111). -/
theorem exec_seedd_nil_eq_resetOf (s : State) :
    exec (.seedd []) s = .next (s.answered (State.resetOf s.engine.width).engine [0x0200]) := by
  rw [exec_seedd_nil, Engine.seededDefault_eq_construct, State.resetOf_engine]

/-- Settles O22: the reset registers of each width are the printed values; any payload fails the length check. -/
theorem seeddRestoresResetRegisters : Obligations.SeeddRestoresResetRegisters := by
  obtain ⟨hreset64, hreset32, -⟩ := resetRegistersHoldDefaultSeedState
  refine ⟨fun s w hs => ?_, fun s w hs => ?_, fun s payload h => ?_⟩
  · rw [exec_seedd_nil_eq_resetOf, hs, Engine.width, hreset64]
  · rw [exec_seedd_nil_eq_resetOf, hs, Engine.width, hreset32]
  · exact exec_ofCommand_of_length_ne_need (c := .seedd) h

end Sys2Proof.Machine
end

section
/-! PROOFS of the statements about 43_discard.md: DISCARD (R120) and its equivalence with repeated NEXT (R121). -/

namespace Sys2Proof.Machine

/-! ## DISCARD -/

/-- Settles O16: the engine's steps are the iterate with the parameters of the width; any other count of beats fails
the length check. -/
theorem discardStepsByItsCount : Obligations.DiscardStepsByItsCount := by
  refine ⟨fun s n => ⟨fun w hs => ?_, fun w hs => ?_⟩, fun s payload h => ?_⟩
  · rw [exec_discard_singleton, hs, Engine.stepped, stepTimes_eq_iterate]
  · rw [exec_discard_singleton, hs, Engine.stepped, stepTimes_eq_iterate]
  · exact exec_ofCommand_of_length_ne_need (c := .discard) h

/-! ## DISCARD and repeated NEXT -/

/-- Steps of the registers add up, whatever their width. -/
theorem Engine.stepped_add (j k : Nat) (e : Engine) : e.stepped (j + k) = (e.stepped k).stepped j := by
  cases e <;> simp only [Engine.stepped, stepTimes_add]

@[simp] theorem Engine.stepped_zero (e : Engine) : e.stepped 0 = e := by
  cases e <;> simp only [Engine.stepped, stepTimes_zero]

/-- The first NEXT of a row is answered, and the others run in the state it leaves. -/
theorem runNexts_succ (k : Nat) (s : State) :
    runNexts (k + 1) s = runNexts k (s.answered (s.engine.stepped 1) [0x0400, s.engine.output]) := by
  rw [runNexts, exec_next_nil]

/-- `k + 1` NEXTs take `k + 1` steps, and the last of them answers the output of the registers after `k` steps. -/
theorem runNexts_succ_answers (k : Nat) (s : State) :
    ∃ v, runNexts (k + 1) s = .next v ∧ v.engine = s.engine.stepped (k + 1) ∧
      v.responses.getLast? = some [0x0400, (s.engine.stepped k).output] := by
  induction k generalizing s with
  | zero => exact ⟨_, runNexts_succ 0 s, rfl, by simp⟩
  | succ k ih =>
    obtain ⟨v, hrun, hengine, hlast⟩ := ih (s.answered (s.engine.stepped 1) [0x0400, s.engine.output])
    rw [State.answered_engine, ← Engine.stepped_add] at hengine hlast
    exact ⟨v, (runNexts_succ (k + 1) s).trans hrun, hengine, hlast⟩

/-- Settles O17: both runs end `n + 1` steps ahead, and both last answers are the output after `n` steps. -/
theorem discardThenNextIsNextRepeated : Obligations.DiscardThenNextIsNextRepeated := by
  intro s n
  obtain ⟨v, hrun, hengine, hlast⟩ := runNexts_succ_answers n.toNat s
  refine ⟨_, _, v, exec_discard_singleton n s, exec_next_nil _, hrun, ?_, ?_⟩
  · rw [hengine, State.answered_engine, State.answered_engine, Nat.add_comm, Engine.stepped_add]
  · rw [hlast, State.answered_responses, List.getLast?_concat, State.answered_engine]

end Sys2Proof.Machine
end

section
/-! PROOFS of the statements about 44_jump.md: the answers of JUMP and LJUMP (R127, R128), and what the derived
state is (R129). A table is a polynomial over GF(2) with the update as its unknown. The jump tables are powers of the
unknown modulo a polynomial that takes every state to zero, by repeated squaring. -/

namespace Sys2Proof.Machine

/-! ## Exclusive or of states -/

@[simp] theorem zeroWords_xorWords {n : Nat} (s : Words n) : xorWords (zeroWords n) s = s := by
  simp [xorWords, zeroWords]

theorem xorWords_comm {n : Nat} (a b : Words n) : xorWords a b = xorWords b a := by
  simp only [xorWords, BitVec.xor_comm]

theorem xorWords_assoc {n : Nat} (a b c : Words n) :
    xorWords (xorWords a b) c = xorWords a (xorWords b c) := by
  simp only [xorWords, BitVec.xor_assoc]

theorem xorWords_left_comm {n : Nat} (a b c : Words n) :
    xorWords a (xorWords b c) = xorWords b (xorWords a c) := by
  rw [← xorWords_assoc, xorWords_comm a b, xorWords_assoc]

@[simp] theorem xorWords_self {n : Nat} (s : Words n) : xorWords s s = zeroWords n :=
  xorWords_eq_zeroWords_iff.2 rfl

theorem stepTimes_xorWords {n : Nat} (p : Params n) (k : Nat) (a b : Words n) :
    stepTimes p k (xorWords a b) = xorWords (stepTimes p k a) (stepTimes p k b) := by
  induction k generalizing a b with
  | zero => rfl
  | succ k ih => rw [stepTimes_succ, stepWords_xorWords, ih, ← stepTimes_succ, ← stepTimes_succ]

/-! ## The advance is linear and commutes with the update -/

/-- The loop is linear in its accumulator and its working copy together. -/
theorem advanceLoop_xorWords {n : Nat} (p : Params n) (bits : List Bool) (acc acc' w w' : Words n) :
    advanceLoop p bits (xorWords acc acc') (xorWords w w') =
      xorWords (advanceLoop p bits acc w) (advanceLoop p bits acc' w') := by
  induction bits generalizing acc acc' w w' with
  | nil => rfl
  | cons b bits ih =>
    cases b with
    | false => simp [advanceLoop, stepWords_xorWords, ih]
    | true =>
      have hacc : xorWords (xorWords acc acc') (xorWords w w') =
          xorWords (xorWords acc w) (xorWords acc' w') := by
        simp only [xorWords_assoc, xorWords_left_comm acc' w]
      simp [advanceLoop, stepWords_xorWords, hacc, ih]

/-- What the accumulator holds at the start is only added to the result. -/
theorem advanceLoop_eq_xorWords {n : Nat} (p : Params n) (bits : List Bool) (acc w : Words n) :
    advanceLoop p bits acc w = xorWords acc (advanceLoop p bits (zeroWords n) w) := by
  simpa [advanceLoop_zeroWords] using advanceLoop_xorWords p bits acc (zeroWords n) (zeroWords n) w

theorem advanceLoop_stepWords {n : Nat} (p : Params n) (bits : List Bool) (acc w : Words n) :
    advanceLoop p bits (stepWords p acc) (stepWords p w) = stepWords p (advanceLoop p bits acc w) := by
  induction bits generalizing acc w with
  | nil => rfl
  | cons b bits ih => cases b <;> simp [advanceLoop, ← stepWords_xorWords, ih]

theorem advanceWords_xorWords {n : Nat} (p : Params n) (T a b : Words n) :
    advanceWords p T (xorWords a b) = xorWords (advanceWords p T a) (advanceWords p T b) := by
  simpa [advanceWords] using advanceLoop_xorWords p (tableBits T) (zeroWords n) (zeroWords n) a b

theorem advanceWords_stepTimes {n : Nat} (p : Params n) (T : Words n) (k : Nat) (w : Words n) :
    advanceWords p T (stepTimes p k w) = stepTimes p k (advanceWords p T w) := by
  have hstep : Function.Commute (advanceWords p T) (stepWords p) := fun w => by
    simpa [advanceWords] using advanceLoop_stepWords p (tableBits T) (zeroWords n) w
  simpa only [stepTimes_eq_iterate] using hstep.iterate_right k w

/-- Settles O29: the loop adds up states that each depend linearly on the start, and steps of the start pass through
it. -/
theorem advanceIsLinearAndCommutes : Obligations.AdvanceIsLinearAndCommutes := fun _ p T =>
  ⟨advanceWords_xorWords p T, advanceWords_zeroWords p T, advanceWords_stepTimes p T⟩

/-! ## The bits of a table as the bits of a number -/

/-- The lowest `d` bits of `q`, bit 0 first: the coefficients of a polynomial over GF(2) of degree below `d`. -/
def polyBits : Nat → Nat → List Bool
  | 0, _ => []
  | d + 1, q => decide (q % 2 = 1) :: polyBits d (q / 2)

theorem polyBits_eq_map_testBit (d q : Nat) : polyBits d q = (List.range d).map q.testBit := by
  induction d generalizing q with
  | zero => rfl
  | succ d ih =>
    rw [polyBits, ih, List.range_succ_eq_map, List.map_cons, Nat.testBit_zero, List.map_map]
    congr 2
    exact funext fun k => (Nat.testBit_succ q k).symm

/-- A table as one number, word 0 lowest (44_jump.md R126). -/
def tableNumber {n : Nat} (T : Words n) : Nat := (T.s3 ++ (T.s2 ++ (T.s1 ++ T.s0))).toNat

theorem wordBits_append {m n : Nat} (x : BitVec m) (y : BitVec n) :
    wordBits (x ++ y) = wordBits y ++ wordBits x := by
  have hrange : List.range (m + n) = List.range n ++ (List.range m).map (n + ·) := by
    rw [Nat.add_comm, List.range_add]
  rw [wordBits, hrange, List.map_append, List.map_map]
  congr 1
  · exact List.map_congr_left fun k hk => by simp [BitVec.getLsbD_append, List.mem_range.1 hk]
  · exact List.map_congr_left fun k _ => by simp [BitVec.getLsbD_append]

theorem tableBits_eq_polyBits {n : Nat} (T : Words n) : tableBits T = polyBits (4 * n) (tableNumber T) := by
  have hwidth : 4 * n = n + (n + (n + n)) := by omega
  calc tableBits T = wordBits (T.s3 ++ (T.s2 ++ (T.s1 ++ T.s0))) := by
        simp only [tableBits, wordBits_append, List.append_assoc]
    _ = polyBits (4 * n) (tableNumber T) := by rw [hwidth, polyBits_eq_map_testBit]; rfl

/-! ## The answers of JUMP and LJUMP -/

/-- The loop adds up the iterates over the bits that are set. -/
theorem advanceLoop_map_eq_foldl {n : Nat} (p : Params n) (f : Nat → Bool) (d : Nat) (acc w : Words n) :
    advanceLoop p ((List.range d).map f) acc w =
      ((List.range d).filter f).foldl (fun acc k => xorWords acc ((stepWords p)^[k] w)) acc := by
  induction d generalizing f acc w with
  | zero => rfl
  | succ d ih =>
    have htail := ih (f ∘ Nat.succ) (if f 0 then xorWords acc w else acc) (stepWords p w)
    rw [List.range_succ_eq_map, List.map_cons, List.map_map, advanceLoop, htail, List.filter_cons,
      List.filter_map]
    cases f 0 <;> simp [List.foldl_map, Function.iterate_succ_apply]

theorem advanceWords_eq_foldl {n : Nat} (p : Params n) (T w : Words n) :
    advanceWords p T w = ((List.range (4 * n)).filter fun k => Nat.testBit (tableNumber T) k).foldl
      (fun acc k => xorWords acc ((stepWords p)^[k] w)) ⟨0, 0, 0, 0⟩ := by
  rw [advanceWords, tableBits_eq_polyBits, polyBits_eq_map_testBit]
  exact advanceLoop_map_eq_foldl p _ _ _ w

theorem tableNumber_jump64 : tableNumber params64.jump =
    0x39ABDC4529B1661CA9582618E03FC9AAD5A61266F0C9392C180EC6D33CFD0ABA := by decide

theorem tableNumber_ljump64 : tableNumber params64.ljump =
    0x39109BB02ACBE63577710069854EE241C5004E441C522FB376E15D3EFEFDCBBF := by decide

theorem tableNumber_jump32 : tableNumber params32.jump = 0x77F2DB5B6FA035C3F542D2D38764000B := by decide

theorem tableNumber_ljump32 : tableNumber params32.ljump = 0x1C580662CCF5A0EF0B6F099FB523952E := by decide

/-- Settles O26: the derived state is the xor over the bits of the table's number; a payload fails the length
check. -/
theorem jumpAnswersTableXor : Obligations.JumpAnswersTableXor := by
  refine ⟨fun s w hs => ?_, fun s w hs => ?_, fun s payload h => ?_⟩
  · rw [← tableNumber_jump64, ← advanceWords_eq_foldl, exec_jump_nil, hs]
    simp [Engine.jumped, Engine.words, muxBeats_eq]
  · rw [← tableNumber_jump32, ← advanceWords_eq_foldl, exec_jump_nil, hs]
    rfl
  · exact exec_ofCommand_of_length_ne_need (c := .jump) h

/-- Settles O27: as for JUMP, over the long-jump table. -/
theorem longJumpAnswersTableXor : Obligations.LongJumpAnswersTableXor := by
  refine ⟨fun s w hs => ?_, fun s w hs => ?_, fun s payload h => ?_⟩
  · rw [← tableNumber_ljump64, ← advanceWords_eq_foldl, exec_ljump_nil, hs]
    simp [Engine.longJumped, Engine.words, muxBeats_eq]
  · rw [← tableNumber_ljump32, ← advanceWords_eq_foldl, exec_ljump_nil, hs]
    rfl
  · exact exec_ofCommand_of_length_ne_need (c := .ljump) h

/-! ## Polynomials over GF(2) in the update -/

/-- The polynomial with the lowest `d` bits of `q` as its coefficients, the update as its unknown, applied to `w`. -/
def polyWords {n : Nat} (p : Params n) (d q : Nat) (w : Words n) : Words n :=
  advanceLoop p (polyBits d q) (zeroWords n) w

theorem advanceWords_eq_polyWords {n : Nat} (p : Params n) (T w : Words n) :
    advanceWords p T w = polyWords p (4 * n) (tableNumber T) w := by
  rw [advanceWords, tableBits_eq_polyBits, polyWords]

section
variable {n : Nat} (p : Params n)

@[simp] theorem polyWords_no_bits (q : Nat) (w : Words n) : polyWords p 0 q w = zeroWords n := rfl

/-- The lowest coefficient, and the others one step on. -/
theorem polyWords_succ (d q : Nat) (w : Words n) : polyWords p (d + 1) q w =
    xorWords (if q % 2 = 1 then w else zeroWords n) (polyWords p d (q / 2) (stepWords p w)) := by
  rw [polyWords, polyBits, advanceLoop, advanceLoop_eq_xorWords, polyWords]
  simp

theorem polyWords_xorWords (d q : Nat) (a b : Words n) :
    polyWords p d q (xorWords a b) = xorWords (polyWords p d q a) (polyWords p d q b) := by
  simpa [polyWords] using advanceLoop_xorWords p (polyBits d q) (zeroWords n) (zeroWords n) a b

theorem polyWords_stepWords (d q : Nat) (w : Words n) :
    polyWords p d q (stepWords p w) = stepWords p (polyWords p d q w) := by
  simpa [polyWords] using advanceLoop_stepWords p (polyBits d q) (zeroWords n) w

@[simp] theorem polyWords_zero (d : Nat) (w : Words n) : polyWords p d 0 w = zeroWords n := by
  induction d generalizing w with
  | zero => rfl
  | succ d ih => simp [polyWords_succ, ih]

/-- The polynomial `x` is one step. -/
theorem polyWords_two {d : Nat} (hd : 2 ≤ d) (w : Words n) : polyWords p d 2 w = stepWords p w := by
  obtain ⟨d, rfl⟩ := Nat.exists_eq_add_of_le' hd
  simp [polyWords_succ]

/-- The sum of two polynomials. -/
theorem polyWords_xor (d a b : Nat) (w : Words n) :
    polyWords p d (a ^^^ b) w = xorWords (polyWords p d a w) (polyWords p d b w) := by
  induction d generalizing a b w with
  | zero => simp
  | succ d ih =>
    have hlow : (if (a ^^^ b) % 2 = 1 then w else zeroWords n) =
        xorWords (if a % 2 = 1 then w else zeroWords n) (if b % 2 = 1 then w else zeroWords n) := by
      simp only [Nat.xor_mod_two_eq_one]
      by_cases ha : a % 2 = 1 <;> by_cases hb : b % 2 = 1 <;> simp [ha, hb]
    simp only [polyWords_succ, Nat.xor_div_two, ih, hlow, xorWords_assoc, xorWords_left_comm]

/-- A polynomial times one bit. -/
theorem polyWords_mul_bit (d a b : Nat) (w : Words n) :
    polyWords p d (a * (b % 2)) w = if b % 2 = 1 then polyWords p d a w else zeroWords n := by
  obtain h | h := Nat.mod_two_eq_zero_or_one b <;> simp [h]

/-- Only the bits below the degree count. -/
theorem polyWords_succ_of_top_zero {d q : Nat} (h : q / 2 ^ d % 2 = 0) (w : Words n) :
    polyWords p (d + 1) q w = polyWords p d q w := by
  induction d generalizing q w with
  | zero => simp [polyWords_succ, show q % 2 = 0 by simpa using h]
  | succ d ih =>
    have htail : q / 2 / 2 ^ d % 2 = 0 := by rwa [Nat.div_div_eq_div_mul, ← Nat.pow_succ']
    rw [polyWords_succ, ih htail, ← polyWords_succ]

/-- Twice the number is `x` times the polynomial: one step more. -/
theorem polyWords_two_mul (d a : Nat) (w : Words n) :
    polyWords p (d + 1) (2 * a) w = stepWords p (polyWords p d a w) := by
  simp [polyWords_succ, polyWords_stepWords]

end

/-! ## Products modulo a polynomial of degree `d` -/

/-- `x` times `a` modulo `P`. Here and in `mulAdd` the bits are factors, and the operations are the functions of
`Nat` that the kernel computes by itself. -/
def timesX (d P a : Nat) : Nat := (Nat.mul 2 a).xor (P.mul (((Nat.mul 2 a).shiftRight d).mod 2))

theorem timesX_eq (d P a : Nat) : timesX d P a = (2 * a) ^^^ P * (2 * a / 2 ^ d % 2) := by
  rw [← Nat.shiftRight_eq_div_pow]
  rfl

/-- `acc` plus `a` times the polynomial of the lowest `k` bits of `b`, modulo `P`. -/
def mulAdd (d P : Nat) : Nat → Nat → Nat → Nat → Nat
  | 0, _, _, acc => acc
  | k + 1, a, b, acc => mulAdd d P k (timesX d P a) (b.div 2) (acc.xor (a.mul (b.mod 2)))

theorem mulAdd_succ (d P k a b acc : Nat) :
    mulAdd d P (k + 1) a b acc = mulAdd d P k (timesX d P a) (b / 2) (acc ^^^ a * (b % 2)) := rfl

/-- `q` squared `k` times, modulo `P`. -/
def squares (d P : Nat) : Nat → Nat → Nat
  | 0, q => q
  | k + 1, q => squares d P k (mulAdd d P d q q 0)

/-- `P` has degree `d`, and the polynomial it stands for takes every state to zero. -/
structure Annihilator {n : Nat} (p : Params n) (d P : Nat) : Prop where
  top : P / 2 ^ d % 2 = 1
  zero : ∀ w : Words n, polyWords p (d + 1) P w = zeroWords n

section
variable {n : Nat} {p : Params n} {d P : Nat} (hP : Annihilator p d P)
include hP

theorem polyWords_timesX (a : Nat) (w : Words n) :
    polyWords p d (timesX d P a) w = stepWords p (polyWords p d a w) := by
  have htop : timesX d P a / 2 ^ d % 2 = 0 := by
    rw [timesX_eq, Nat.xor_div_two_pow]
    obtain h | h := Nat.mod_two_eq_zero_or_one (2 * a / 2 ^ d)
    · simp [h]
    · simp [h, Nat.add_mod, hP.top]
  rw [← polyWords_succ_of_top_zero p htop, timesX_eq, polyWords_xor, polyWords_two_mul, polyWords_mul_bit, hP.zero]
  simp

theorem polyWords_mulAdd (k a b acc : Nat) (w : Words n) :
    polyWords p d (mulAdd d P k a b acc) w =
      xorWords (polyWords p d acc w) (polyWords p k b (polyWords p d a w)) := by
  induction k generalizing a b acc with
  | zero => simp [mulAdd]
  | succ k ih =>
    rw [mulAdd_succ, ih, polyWords_timesX hP, polyWords_xor, polyWords_mul_bit, polyWords_succ, xorWords_assoc]

/-- A polynomial that stands for `2 ^ e` steps stands for `2 ^ (e + k)` steps after `k` squarings. -/
theorem polyWords_squares {q e : Nat} (hq : polyWords p d q = stepTimes p (2 ^ e)) (k : Nat) :
    polyWords p d (squares d P k q) = stepTimes p (2 ^ (e + k)) := by
  induction k generalizing q e with
  | zero => exact hq
  | succ k ih =>
    have hsquare : polyWords p d (mulAdd d P d q q 0) = stepTimes p (2 ^ (e + 1)) := funext fun w => by
      rw [polyWords_mulAdd hP, polyWords_zero, zeroWords_xorWords, hq, Nat.pow_succ, Nat.mul_two, stepTimes_add]
    rw [squares, ih hsquare, Nat.add_right_comm, Nat.add_assoc]

end

/-! ## A polynomial that takes every state to zero -/

/-- What holds of zero, of every word with one bit set and of every xor holds of every word. -/
theorem bitVec_induction_twoPow {n : Nat} {motive : BitVec n → Prop} (zero : motive 0)
    (twoPow : ∀ i < n, motive (BitVec.twoPow n i)) (xor : ∀ a b, motive a → motive b → motive (a ^^^ b))
    (x : BitVec n) : motive x := by
  have hlow : ∀ k, motive ((x.setWidth k).setWidth n) := by
    intro k
    induction k with
    | zero => simpa [BitVec.of_length_zero (x := x.setWidth 0)] using zero
    | succ k ih =>
      cases hk : x.getLsbD k with
      | false => rwa [BitVec.setWidth_setWidth_succ_eq_setWidth_setWidth_of_getLsbD_false hk]
      | true =>
        have hdisj : (x.setWidth k).setWidth n &&& BitVec.twoPow n k = 0 := by
          simp [BitVec.and_twoPow]
        rw [BitVec.setWidth_setWidth_succ_eq_setWidth_setWidth_or_twoPow_of_getLsbD_true hk,
          or_eq_xor_of_and_eq_zero hdisj]
        exact xor _ _ ih (twoPow k (BitVec.lt_of_getLsbD hk))
  simpa using hlow n

/-- A linear map that commutes with the update and takes every state with one bit set, in `s[0]`, to zero takes all
states to zero: from the states with `s[0]` alone, one step forth or back leads to those with another word alone. -/
theorem eq_zeroWords_of_twoPow {n : Nat} {p : Params n} (hA : 0 < p.shiftA) (hB : p.rotB < n)
    {F : Words n → Words n} (hxor : ∀ a b, F (xorWords a b) = xorWords (F a) (F b))
    (hstep : ∀ w, F (stepWords p w) = stepWords p (F w))
    (hone : ∀ i < n, F ⟨BitVec.twoPow n i, 0, 0, 0⟩ = zeroWords n) (w : Words n) : F w = zeroWords n := by
  have hadd : ∀ {a b : Words n}, F a = zeroWords n → F b = zeroWords n → F (xorWords a b) = zeroWords n := by
    intro a b ha hb
    rw [hxor, ha, hb, xorWords_self]
  have hforth : ∀ {w : Words n}, F w = zeroWords n → F (stepWords p w) = zeroWords n := by
    intro w h
    rw [hstep, h, stepWords_zeroWords]
  have hback : ∀ {w : Words n}, F (stepWords p w) = zeroWords n → F w = zeroWords n := by
    intro w h
    rwa [hstep, stepWords_eq_zeroWords_iff hA hB] at h
  have h0 : ∀ x, F ⟨x, 0, 0, 0⟩ = zeroWords n := by
    have hzero : F (zeroWords n) = zeroWords n := by
      simpa only [xorWords_self] using hxor (zeroWords n) (zeroWords n)
    exact bitVec_induction_twoPow hzero hone fun a b ha hb => by simpa [xorWords] using hadd ha hb
  have h2 : ∀ x, F ⟨0, 0, x, 0⟩ = zeroWords n := fun x => hback <| by
    simpa [stepWords_closed, xorWords] using hadd (hforth (h0 x)) (h0 x)
  have h1 : ∀ x, F ⟨0, x, 0, 0⟩ = zeroWords n := fun x => by
    simpa [stepWords_closed, xorWords] using hadd (hforth (h2 x)) (h2 x)
  have h3 : ∀ x, F ⟨0, 0, 0, x⟩ = zeroWords n := fun x => hback <| by
    simpa [stepWords_closed, xorWords] using
      hadd (hadd (hforth (h1 x)) (h1 x)) (h2 (shlW x p.shiftA))
  simpa [xorWords] using hadd (hadd (h0 w.s0) (h1 w.s1)) (hadd (h2 w.s2) (h3 w.s3))

/-! ## Many states in the lanes of one wide state

With `m` lanes interleaved in a word, bit `i` of lane `j` at position `i * m + j`, a shift or rotation of the wide
word by `k * m` is one by `k` in every lane, with nothing passing from lane to lane. -/

/-- Lane `j` of a wide word. -/
def lane {n m : Nat} (j : Nat) (x : BitVec (n * m)) : BitVec n := BitVec.ofFnLE fun i => x.getLsbD (i * m + j)

/-- The parameters whose update is the update of `p` in every one of `m` lanes. -/
def interleaved {n : Nat} (m : Nat) (p : Params n) : Params (n * m) :=
  { shiftA := p.shiftA * m, rotB := p.rotB * m, rotR := p.rotR * m, gamma := 0, m1 := 0, m2 := 0, x1 := 0, x2 := 0,
    x3 := 0, defaultSeed := 0, jexp := p.jexp, lexp := p.lexp, jump := zeroWords _, ljump := zeroWords _ }

/-- Lane `j` of a wide state, word by word. -/
def laneWords {n m : Nat} (j : Nat) (s : Words (n * m)) : Words n :=
  ⟨lane j s.s0, lane j s.s1, lane j s.s2, lane j s.s3⟩

@[simp] theorem lane_zero {n m : Nat} (j : Nat) : lane j (0#(n * m)) = 0#n := by
  apply BitVec.eq_of_getLsbD_eq
  intro i _
  simp [lane, BitVec.getLsbD_ofFnLE]

@[simp] theorem laneWords_zeroWords {n m : Nat} (j : Nat) : laneWords j (zeroWords (n * m)) = zeroWords n := by
  simp [laneWords, zeroWords]

theorem lane_xor {n m : Nat} (j : Nat) (x y : BitVec (n * m)) : lane j (x ^^^ y) = lane j x ^^^ lane j y := by
  apply BitVec.eq_of_getLsbD_eq
  intro i hi
  simp [lane, hi]

section
variable {n m j : Nat} (hj : j < m)
include hj

/-- A position is inside the first `k` groups of `m` bits exactly when its group is among them. -/
theorem mul_add_lane_lt_iff {i k : Nat} : i * m + j < k * m ↔ i < k := by
  constructor
  · intro h
    exact Nat.lt_of_mul_lt_mul_right (Nat.lt_of_le_of_lt (Nat.le_add_right _ j) h)
  · intro h
    calc i * m + j < (i + 1) * m := by rw [Nat.succ_mul]; omega
      _ ≤ k * m := Nat.mul_le_mul_right m h

theorem getLsbD_lane (x : BitVec (n * m)) (i : Nat) : (lane j x).getLsbD i = x.getLsbD (i * m + j) := by
  rw [lane, BitVec.getLsbD_ofFnLE]
  split
  next h => rfl
  next h => exact (BitVec.getLsbD_of_ge x _ (by rw [← not_lt, mul_add_lane_lt_iff hj]; exact h)).symm

theorem lane_shlW (x : BitVec (n * m)) (k : Nat) : lane j (shlW x (k * m)) = shlW (lane j x) k := by
  apply BitVec.eq_of_getLsbD_eq
  intro i hi
  simp only [shlW, getLsbD_lane hj, BitVec.getLsbD_shiftLeft, mul_add_lane_lt_iff hj]
  by_cases hk : i < k
  · simp [hk]
  · have hpos : i * m + j - k * m = (i - k) * m + j := by
      have := Nat.mul_le_mul_right m (Nat.le_of_not_lt hk)
      rw [Nat.sub_mul]
      omega
    rw [hpos]

theorem lane_shrW (x : BitVec (n * m)) (k : Nat) : lane j (shrW x (k * m)) = shrW (lane j x) k := by
  apply BitVec.eq_of_getLsbD_eq
  intro i _
  simp [shrW, getLsbD_lane hj, Nat.add_mul, Nat.add_assoc]

theorem lane_rotlW (x : BitVec (n * m)) (k : Nat) : lane j (rotlW x (k * m)) = rotlW (lane j x) k := by
  rw [rotlW_eq_xor, rotlW_eq_xor, ← Nat.sub_mul, lane_xor, lane_shlW hj, lane_shrW hj]

theorem laneWords_stepWords (p : Params n) (s : Words (n * m)) :
    laneWords j (stepWords (interleaved m p) s) = stepWords p (laneWords j s) := by
  simp only [stepWords_closed, laneWords, interleaved, lane_xor, lane_shlW hj, lane_rotlW hj]

theorem laneWords_advanceLoop (p : Params n) (bits : List Bool) (acc w : Words (n * m)) :
    laneWords j (advanceLoop (interleaved m p) bits acc w) =
      advanceLoop p bits (laneWords j acc) (laneWords j w) := by
  induction bits generalizing acc w with
  | nil => rfl
  | cons b bits ih =>
    rw [advanceLoop, ih, laneWords_stepWords hj]
    cases b
    · rfl
    · simp [advanceLoop, laneWords, xorWords, lane_xor]

theorem laneWords_polyWords (p : Params n) (d q : Nat) (w : Words (n * m)) :
    laneWords j (polyWords (interleaved m p) d q w) = polyWords p d q (laneWords j w) := by
  rw [polyWords, laneWords_advanceLoop hj, laneWords_zeroWords, polyWords]

end

/-- A wide word with bit `i` of lane `l` set and no other. -/
theorem lane_twoPow {n m i j l : Nat} (hj : j < m) (hl : l < m) :
    lane j (BitVec.twoPow (n * m) (i * m + l)) = if l = j then BitVec.twoPow n i else 0 := by
  apply BitVec.eq_of_getLsbD_eq
  intro k _
  have hpos : i * m + l = k * m + j ↔ i = k ∧ l = j := by
    refine ⟨fun h => ?_, fun ⟨hi, hl⟩ => by rw [hi, hl]⟩
    have hdiv := congrArg (· / m) h
    have hmod := congrArg (· % m) h
    have hm : 0 < m := Nat.zero_lt_of_lt hj
    simp only [Nat.mul_comm _ m, Nat.mul_add_div hm, Nat.mul_add_mod, Nat.div_eq_of_lt, Nat.mod_eq_of_lt, hj,
      hl] at hdiv hmod
    exact ⟨hdiv, hmod⟩
  simp only [getLsbD_lane hj, BitVec.getLsbD_twoPow, mul_add_lane_lt_iff hl, hpos]
  by_cases h : l = j <;> simp [h, BitVec.getLsbD_twoPow]

/-- Bit `i` of lane `i` is set for every `i < k`, and no other bit. -/
def diagonal (n : Nat) : Nat → BitVec (n * n)
  | 0 => 0
  | k + 1 => diagonal n k ^^^ BitVec.twoPow (n * n) (k * n + k)

theorem lane_diagonal {n k j : Nat} (hk : k ≤ n) (hj : j < n) :
    lane j (diagonal n k) = if j < k then BitVec.twoPow n j else 0 := by
  induction k with
  | zero => simp [diagonal]
  | succ k ih =>
    rw [diagonal, lane_xor, ih (Nat.le_of_succ_le hk), lane_twoPow hj hk]
    obtain h | rfl | h := Nat.lt_trichotomy j k
    · simp [h, h.ne', Nat.lt_succ_of_lt h]
    · simp
    · simp [h.ne, Nat.lt_asymm h, Nat.not_lt.2 (Nat.succ_le_of_lt h)]

/-- One run of the wide update is a run from every state with one bit set, in `s[0]`. -/
theorem polyWords_twoPow_of_diagonal {n : Nat} {p : Params n} {d q : Nat}
    (h : polyWords (interleaved n p) d q ⟨diagonal n n, 0, 0, 0⟩ = zeroWords (n * n)) {i : Nat} (hi : i < n) :
    polyWords p d q ⟨BitVec.twoPow n i, 0, 0, 0⟩ = zeroWords n := by
  have hlane : laneWords i ⟨diagonal n n, 0, 0, 0⟩ = (⟨BitVec.twoPow n i, 0, 0, 0⟩ : Words n) := by
    simp [laneWords, lane_diagonal le_rfl hi, hi]
  rw [← hlane, ← laneWords_polyWords hi, h, laneWords_zeroWords]

/-! ## The characteristic polynomials of the two updates -/

/-- The characteristic polynomial of Engine64's update, of degree 256. -/
def charPoly64 : Nat := 0x10003C03C3F3ECB1904B4EDCF26259F850280002BCEFD1A5E9D116F2BB0F0F001

/-- The characteristic polynomial of Engine32's update, of degree 128. -/
def charPoly32 : Nat := 0x100FC65A2006254B11B489DB6DE18FC01

theorem polyWords_charPoly64_diagonal :
    polyWords (interleaved 64 params64) 257 charPoly64 ⟨diagonal 64 64, 0, 0, 0⟩ = zeroWords (64 * 64) := by
  decide +kernel

theorem polyWords_charPoly32_diagonal :
    polyWords (interleaved 32 params32) 129 charPoly32 ⟨diagonal 32 32, 0, 0, 0⟩ = zeroWords (32 * 32) := by
  decide +kernel

theorem annihilator_charPoly64 : Annihilator params64 256 charPoly64 where
  top := by decide
  zero := eq_zeroWords_of_twoPow (by decide) (by decide) (polyWords_xorWords params64 257 charPoly64)
    (polyWords_stepWords params64 257 charPoly64) fun _ => polyWords_twoPow_of_diagonal polyWords_charPoly64_diagonal

theorem annihilator_charPoly32 : Annihilator params32 128 charPoly32 where
  top := by decide
  zero := eq_zeroWords_of_twoPow (by decide) (by decide) (polyWords_xorWords params32 129 charPoly32)
    (polyWords_stepWords params32 129 charPoly32) fun _ => polyWords_twoPow_of_diagonal polyWords_charPoly32_diagonal

/-! ## A jump is a power of two of steps -/

theorem squares_jump64 : squares 256 charPoly64 128 2 = tableNumber params64.jump := by
  rw [tableNumber_jump64]
  decide +kernel

theorem squares_ljump64 :
    squares 256 charPoly64 64 (tableNumber params64.jump) = tableNumber params64.ljump := by
  rw [tableNumber_jump64, tableNumber_ljump64]
  decide +kernel

theorem squares_jump32 : squares 128 charPoly32 64 2 = tableNumber params32.jump := by
  rw [tableNumber_jump32]
  decide +kernel

theorem squares_ljump32 :
    squares 128 charPoly32 32 (tableNumber params32.jump) = tableNumber params32.ljump := by
  rw [tableNumber_jump32, tableNumber_ljump32]
  decide +kernel

/-- Two tables of which the first comes from `x` by `j` squarings and the second from the first by `l` more. -/
theorem advanceWords_eq_stepTimes {n : Nat} {p : Params n} {P j l : Nat} {T U : Words n}
    (hP : Annihilator p (4 * n) P) (hn : 0 < n) (hT : squares (4 * n) P j 2 = tableNumber T)
    (hU : squares (4 * n) P l (tableNumber T) = tableNumber U) (w : Words n) :
    advanceWords p T w = stepTimes p (2 ^ j) w ∧ advanceWords p U w = stepTimes p (2 ^ (j + l)) w := by
  have hx : polyWords p (4 * n) 2 = stepTimes p (2 ^ 0) := funext (polyWords_two p (by omega))
  have hj : polyWords p (4 * n) (tableNumber T) = stepTimes p (2 ^ j) := by
    rw [← hT, polyWords_squares hP hx, Nat.zero_add]
  rw [advanceWords_eq_polyWords, advanceWords_eq_polyWords, ← hU, polyWords_squares hP hj, hj]
  exact ⟨rfl, rfl⟩

/-- Settles O28: the tables' numbers are the squares of `x` modulo the characteristic polynomial. -/
theorem jumpAdvancesByPowerOfTwoSteps : Obligations.JumpAdvancesByPowerOfTwoSteps := by
  refine ⟨fun w => ?_, fun w => ?_, rfl, rfl, rfl, rfl⟩
  · obtain ⟨hj, hl⟩ :=
      advanceWords_eq_stepTimes annihilator_charPoly64 (by decide) squares_jump64 squares_ljump64 w
    exact ⟨congrArg Engine.engine64 hj, congrArg Engine.engine64 hl⟩
  · obtain ⟨hj, hl⟩ :=
      advanceWords_eq_stepTimes annihilator_charPoly32 (by decide) squares_jump32 squares_ljump32 w
    exact ⟨congrArg Engine.engine32 hj, congrArg Engine.engine32 hl⟩

/-! ## A nonzero state does not come back after a power of two of steps -/

/-- The update has no fixed point but zero: `s1 = s3` from the first word and so `s3 = 0` from the last. -/
theorem eq_zeroWords_of_stepWords_eq_self {n : Nat} {p : Params n} {w : Words n} (h : stepWords p w = w) :
    w = zeroWords n := by
  obtain ⟨s0, s1, s2, s3⟩ := w
  simp only [stepWords_closed, Words.mk.injEq] at h
  obtain ⟨h0, h1, h2, h3⟩ := h
  obtain rfl : s1 = s3 := by simpa [BitVec.xor_assoc] using h0
  obtain rfl : s1 = 0 := by simpa using h3.symm
  obtain rfl : s0 = 0 := by simpa using h2
  obtain rfl : s2 = 0 := by simpa using h1
  rfl

/-- What `2 ^ (k + 1)` steps return, `2 ^ k` steps change by a state that they return. -/
theorem eq_zeroWords_of_stepTimes_two_pow_eq_self {n : Nat} {p : Params n} {k : Nat} {w : Words n}
    (h : stepTimes p (2 ^ k) w = w) : w = zeroWords n := by
  induction k generalizing w with
  | zero => exact eq_zeroWords_of_stepWords_eq_self h
  | succ k ih =>
    have htwice : stepTimes p (2 ^ k) (stepTimes p (2 ^ k) w) = w := by
      rwa [← stepTimes_add, ← Nat.mul_two, ← Nat.pow_succ]
    have hdiff : xorWords (stepTimes p (2 ^ k) w) w = zeroWords n :=
      ih (by rw [stepTimes_xorWords, htwice, xorWords_comm])
    exact ih (xorWords_eq_zeroWords_iff.1 hdiff)

theorem Engine.isZero_of_stepped_two_pow_eq_self {e : Engine} {k : Nat} (h : e.stepped (2 ^ k) = e) :
    e.isZero = true := by
  cases e with
  | engine64 w =>
    exact (Engine.isZero_engine64 w).2 (eq_zeroWords_of_stepTimes_two_pow_eq_self (Engine.engine64.inj h))
  | engine32 w =>
    exact (Engine.isZero_engine32 w).2 (eq_zeroWords_of_stepTimes_two_pow_eq_self (Engine.engine32.inj h))

theorem Engine.exists_jumped_eq_stepped (e : Engine) :
    ∃ j l, e.jumped = e.stepped (2 ^ j) ∧ e.longJumped = e.stepped (2 ^ l) := by
  obtain ⟨h64, h32, -⟩ := jumpAdvancesByPowerOfTwoSteps
  cases e with
  | engine64 w => exact ⟨_, _, h64 w⟩
  | engine32 w => exact ⟨_, _, h32 w⟩

/-- Settles O30: both derived engines are a power of two of steps on, which only a zero engine does not notice. -/
theorem derivedEngineDiffersFromSource : Obligations.DerivedEngineDiffersFromSource := by
  intro e he
  obtain ⟨j, l, hj, hl⟩ := e.exists_jumped_eq_stepped
  have hne : ∀ k, e.stepped (2 ^ k) ≠ e := fun k h => by
    simp [Engine.isZero_of_stepped_two_pow_eq_self h] at he
  exact ⟨hj ▸ hne j, hl ▸ hne l⟩

end Sys2Proof.Machine
end

section
/-! PROOFS of the statements about 45_serialization.md: SER and DESER (R140, R141), the text of a state and its reader
(R142 to R144), and the copies made through either (R145). -/

namespace Sys2Proof.Machine

/-! ## SER and DESER -/

theorem Engine.words_engine64 (w : Words 64) : (Engine.engine64 w).words = [w.s0, w.s1, w.s2, w.s3] := by
  simp [Engine.words, muxBeats_eq]

theorem Engine.words_engine32 (w : Words 32) :
    (Engine.engine32 w).words =
      [w.s0.setWidth 64, w.s1.setWidth 64, w.s2.setWidth 64, w.s3.setWidth 64] := rfl

/-- Settles O31: SER answers the words of the engine; any payload fails the length check. -/
theorem serAnswersWordsInOrder : Obligations.SerAnswersWordsInOrder := by
  refine ⟨fun s w hs => ?_, fun s w hs => ?_, fun s payload h => ?_⟩
  · rw [exec_ser_nil, hs, Engine.words_engine64]
  · rw [exec_ser_nil, hs, Engine.words_engine32]
  · exact exec_ofCommand_of_length_ne_need (c := .ser) h

/-- A wrong count, or a beat that is no word of the engine, keeps the registers. -/
theorem exec_deser_formatError {s : State} {payload : List Beat}
    (h : payload.length ≠ 4 ∨ ∃ b ∈ payload, 2 ^ s.engine.width.bits ≤ b.toNat) :
    exec (.deser payload) s = .next (s.answered s.engine [0x0901]) := by
  have hwf : (Instr.deser payload).wellFormed s.engine.width = false := by
    rw [Instr.wellFormed, Bool.and_eq_false_iff]
    obtain hlen | ⟨b, hb, hbig⟩ := h
    · exact .inl (beq_eq_false_iff_ne.2 hlen)
    · exact .inr (List.all_eq_false.2 ⟨b, hb, by simpa using hbig⟩)
  rw [exec_of_not_wellFormed hwf, State.raise_eq_answered, Instr.command]
  rfl

/-- Settles O32: four beats in range are the words of an engine of the width, which DESER loads; for Engine64 every
beat is in range. -/
theorem deserLoadsAllOrFails : Obligations.DeserLoadsAllOrFails := by
  refine ⟨fun s w hs => ⟨fun v0 v1 v2 v3 => ?_, fun payload h => exec_deser_formatError (.inl h)⟩,
    fun s w hs => ⟨fun v0 v1 v2 v3 => ?_, fun payload h => exec_deser_formatError ?_⟩⟩
  · rw [← exec_deser_words (by rw [hs]; rfl), Engine.words_engine64]
  · rw [← exec_deser_words (by rw [hs]; rfl), Engine.words_engine32]
  · rw [hs]
    exact h

/-- Settles O33: the data are the words of the first engine. -/
theorem deserOfSerCopiesEngine : Obligations.DeserOfSerCopiesEngine := fun a _ hw =>
  ⟨a.engine.words, exec_ser_nil a, exec_deser_words hw⟩

/-! ## The text of a state (R142) -/

theorem length_decimalDigits_le {fuel k v : Nat} (h : v < 10 ^ (k + 1)) :
    (decimalDigits fuel v).length ≤ k + 1 := by
  induction fuel generalizing k v with
  | zero => simp [decimalDigits]
  | succ fuel ih =>
    rw [decimalDigits]
    split
    case isTrue => simp
    case isFalse hv =>
      cases k with
      | zero => omega
      | succ k =>
        have hdiv : v / 10 < 10 ^ (k + 1) := by
          rw [pow_succ] at h
          omega
        simpa using ih hdiv

theorem eq_zero_of_digitChar_eq {d : Nat} (hd : d < 10) (h : digitChar d = '0') : d = 0 := by
  have hcode : 48 + d = 48 := by rw [← toNat_digitChar hd, h]; rfl
  omega

/-- With digits enough for the value, only that of 0 begins with a zero. -/
theorem eq_zero_of_head?_decimalDigits {fuel v : Nat} (h : v < 10 ^ (fuel + 1))
    (hhead : (decimalDigits fuel v).head? = some '0') : v = 0 := by
  induction fuel generalizing v with
  | zero =>
    have hdigit : digitChar (v % 10) = '0' := by simpa [decimalDigits] using hhead
    have := eq_zero_of_digitChar_eq (Nat.mod_lt v (by decide)) hdigit
    omega
  | succ fuel ih =>
    rw [decimalDigits] at hhead
    split at hhead
    case isTrue hv => exact eq_zero_of_digitChar_eq hv (by simpa using hhead)
    case isFalse hv =>
      rw [List.head?_append_of_ne_nil _ (decimalDigits_ne_nil fuel _)] at hhead
      have hdiv : v / 10 < 10 ^ (fuel + 1) := by
        rw [pow_succ] at h
        omega
      have := ih hdiv hhead
      omega

theorem length_decimalText_pos (v : Nat) : 1 ≤ (decimalText v).length :=
  List.length_pos_of_ne_nil (decimalText_ne_nil v)

theorem space_not_mem_decimalText (v : Nat) : ' ' ∉ decimalText v := fun h =>
  absurd (isDigitChar_of_mem_decimalText h) (by decide)

/-- Numerals hold no space, so the spaces of the text are the three between them. -/
theorem splitOn_textOfWords {n : Nat} (v : Words n) : (textOfWords v).splitOn ' ' =
    [decimalText v.s0.toNat, decimalText v.s1.toNat, decimalText v.s2.toNat, decimalText v.s3.toNat] := by
  have hjoin : textOfWords v = [' '].intercalate
      [decimalText v.s0.toNat, decimalText v.s1.toNat, decimalText v.s2.toNat, decimalText v.s3.toNat] := by
    simp [textOfWords, List.intercalate]
  rw [hjoin]
  exact List.splitOn_intercalate ' ' (by simp [space_not_mem_decimalText]) (by simp)

/-- Four numerals of one to `k + 1` digits and three spaces. -/
theorem length_textOfWords {n k : Nat} (h : 2 ^ n ≤ 10 ^ (k + 1)) (v : Words n) :
    7 ≤ (textOfWords v).length ∧ (textOfWords v).length ≤ 4 * (k + 1) + 3 := by
  have hbounds : ∀ x : BitVec n, 1 ≤ (decimalText x.toNat).length ∧ (decimalText x.toNat).length ≤ k + 1 :=
    fun x => ⟨length_decimalText_pos _, length_decimalDigits_le (x.isLt.trans_le h)⟩
  have h0 := hbounds v.s0
  have h1 := hbounds v.s1
  have h2 := hbounds v.s2
  have h3 := hbounds v.s3
  simp only [textOfWords, List.length_append, List.length_cons]
  omega

/-- Settles O37: a value below `2^64` has at most twenty digits, one below `2^32` at most ten. -/
theorem textIsShortestNumerals : Obligations.TextIsShortestNumerals := by
  refine ⟨fun v hv => ?_, fun v => ⟨splitOn_textOfWords v, length_textOfWords (k := 19) (by decide) v⟩,
    fun v => ⟨splitOn_textOfWords v, length_textOfWords (k := 9) (by decide) v⟩⟩
  have hv' : v < 10 ^ (19 + 1) := hv.trans (by decide)
  refine ⟨List.all_eq_true.2 fun c => isDigitChar_of_mem_decimalText, decimalValue_decimalDigits hv',
    length_decimalText_pos v, length_decimalDigits_le hv', fun hhead => ?_⟩
  obtain rfl := eq_zero_of_head?_decimalDigits hv' hhead
  rfl

/-! ## Reading tokens (R143, R144) -/

/-- Where a token before `text` ends: at the end of all, or at whitespace. -/
def EndsToken (text : List Char) : Prop := ∀ c, text.head? = some c → isSpaceChar c = true

theorem endsToken_of_all {space : List Char} (h : space.all isSpaceChar = true) : EndsToken space := fun _ hc =>
  List.all_eq_true.1 h _ (List.mem_of_head? hc)

theorem SeparatedTokens.tail {x : List Char × List Char} {xs : List (List Char × List Char)}
    (h : SeparatedTokens (x :: xs)) : SeparatedTokens xs := by
  obtain ⟨hparts, hsep⟩ := h
  exact ⟨fun y hy => hparts y (List.mem_cons_of_mem x hy), fun y hy => hsep y (List.mem_of_mem_tail hy)⟩

theorem SeparatedTokens.ne_nil {tokens : List (List Char × List Char)} (h : SeparatedTokens tokens)
    {x : List Char × List Char} (hx : x ∈ tokens) : x.2 ≠ [] := by
  obtain ⟨hparts, -⟩ := h
  obtain ⟨-, hne, -⟩ := hparts x hx
  exact hne

/-- The next token of the list has whitespace before it. -/
theorem SeparatedTokens.endsToken {x : List Char × List Char} {xs : List (List Char × List Char)}
    (h : SeparatedTokens (x :: xs)) {rest : List Char} (hrest : EndsToken rest) :
    EndsToken (textOfTokens xs ++ rest) := by
  obtain ⟨hparts, hsep⟩ := h
  cases xs with
  | nil => exact hrest
  | cons y ys =>
    obtain ⟨space, token⟩ := y
    obtain ⟨hspace, -⟩ := hparts _ (List.mem_cons_of_mem x List.mem_cons_self)
    have hne : space ≠ [] := hsep _ List.mem_cons_self
    intro c hc
    refine endsToken_of_all hspace c ?_
    rwa [textOfTokens, List.append_assoc, List.append_assoc, List.head?_append_of_ne_nil _ hne] at hc

theorem takeWhile_of_endsToken {rest : List Char} (h : EndsToken rest) :
    rest.takeWhile (fun c => !isSpaceChar c) = [] := by
  cases rest with
  | nil => rfl
  | cons c rest => simp [h c rfl]

theorem dropWhile_of_endsToken {rest : List Char} (h : EndsToken rest) :
    rest.dropWhile (fun c => !isSpaceChar c) = rest := by
  cases rest with
  | nil => rfl
  | cons c rest => simp [h c rfl]

/-- One turn of the reader takes the first token, with the whitespace before it, and no more. -/
theorem readToken_textOfTokens_cons {n : Nat} {x : List Char × List Char} {xs : List (List Char × List Char)}
    (h : SeparatedTokens (x :: xs)) {rest : List Char} (hrest : EndsToken rest) :
    readToken n (textOfTokens (x :: xs) ++ rest) = (tokenValue n x.2).elim (.error .formatError) fun v =>
      .ok (BitVec.ofNat n v, textOfTokens xs ++ rest) := by
  have hends := h.endsToken hrest
  obtain ⟨space, token⟩ := x
  obtain ⟨hparts, -⟩ := h
  obtain ⟨hspace, hne, htoken⟩ := hparts _ List.mem_cons_self
  have hchars : ∀ c ∈ token, (!isSpaceChar c) = true := by simpa using htoken
  have hhead : isSpaceChar (token.head hne) = false := by simpa using hchars _ (List.head_mem hne)
  have hskip : (textOfTokens ((space, token) :: xs) ++ rest).dropWhile isSpaceChar =
      token ++ (textOfTokens xs ++ rest) := by
    rw [textOfTokens, List.append_assoc, List.append_assoc,
      List.dropWhile_append_of_pos (List.all_eq_true.1 hspace)]
    refine dropWhile_of_head_false ?_ hhead
    rw [List.head?_append_of_ne_nil _ hne, List.head?_eq_some_head hne]
  simp only [readToken, hskip, List.takeWhile_append_of_pos hchars, List.dropWhile_append_of_pos hchars,
    takeWhile_of_endsToken hends, dropWhile_of_endsToken hends, List.append_nil]
  cases tokenValue n token <;> rfl

theorem readToken_of_all_space {n : Nat} {space : List Char} (h : space.all isSpaceChar = true) :
    readToken n space = .error .formatError := by
  have hskip : space.dropWhile isSpaceChar = [] := List.dropWhile_eq_nil_iff.2 (List.all_eq_true.1 h)
  simp [readToken, hskip, tokenValue]

/-- `k` turns of the reader; `parseWords` is four of them (`parseWords_map_wordList`). -/
def readTokens (n : Nat) : Nat → List Char → Except Status (List (BitVec n) × List Char)
  | 0, text => .ok ([], text)
  | k + 1, text =>
    match readToken n text with
    | .error e => .error e
    | .ok (v, following) => (readTokens n k following).map (Prod.map (v :: ·) id)

/-- The four words as a list, `s[0]` first. -/
def wordList {n : Nat} (v : Words n) : List (BitVec n) := [v.s0, v.s1, v.s2, v.s3]

theorem parseWords_map_wordList (n : Nat) (text : List Char) :
    (parseWords n text).map (Prod.map wordList id) = readTokens n 4 text := by
  simp only [parseWords, readTokens]
  rcases readToken n text with e | ⟨v0, t0⟩
  · rfl
  dsimp only
  rcases readToken n t0 with e | ⟨v1, t1⟩
  · rfl
  dsimp only
  rcases readToken n t1 with e | ⟨v2, t2⟩
  · rfl
  dsimp only
  rcases readToken n t2 with e | ⟨v3, t3⟩
  · rfl
  · rfl

section
variable {n k : Nat} {x : List Char × List Char} {xs : List (List Char × List Char)} {rest : List Char}

theorem readTokens_cons_of_valid {v : Nat} (h : SeparatedTokens (x :: xs)) (hrest : EndsToken rest)
    (hv : tokenValue n x.2 = some v) :
    readTokens n (k + 1) (textOfTokens (x :: xs) ++ rest) =
      (readTokens n k (textOfTokens xs ++ rest)).map (Prod.map (BitVec.ofNat n v :: ·) id) := by
  rw [readTokens, readToken_textOfTokens_cons h hrest, hv]
  rfl

theorem readTokens_cons_of_invalid (h : SeparatedTokens (x :: xs)) (hrest : EndsToken rest)
    (hv : tokenValue n x.2 = none) :
    readTokens n (k + 1) (textOfTokens (x :: xs) ++ rest) = .error .formatError := by
  rw [readTokens, readToken_textOfTokens_cons h hrest, hv]
  rfl

/-- A failure after the first token is a failure, be that token valid or not. -/
theorem readTokens_cons_of_error (h : SeparatedTokens (x :: xs)) (hrest : EndsToken rest)
    (herror : readTokens n k (textOfTokens xs ++ rest) = .error .formatError) :
    readTokens n (k + 1) (textOfTokens (x :: xs) ++ rest) = .error .formatError := by
  cases hv : tokenValue n x.2 with
  | none => exact readTokens_cons_of_invalid h hrest hv
  | some v =>
    rw [readTokens_cons_of_valid h hrest hv, herror]
    rfl

end

section
variable {n k : Nat} {tokens : List (List Char × List Char)}

/-- With fewer tokens than turns, the last turn finds whitespace only. -/
theorem readTokens_of_too_few {space : List Char} (h : SeparatedTokens tokens)
    (hspace : space.all isSpaceChar = true) (hk : tokens.length < k) :
    readTokens n k (textOfTokens tokens ++ space) = .error .formatError := by
  induction tokens generalizing k with
  | nil =>
    obtain ⟨k, rfl⟩ := Nat.exists_eq_succ_of_ne_zero (Nat.ne_zero_of_lt hk)
    rw [textOfTokens, List.nil_append, readTokens, readToken_of_all_space hspace]
  | cons x xs ih =>
    obtain ⟨k, rfl⟩ := Nat.exists_eq_succ_of_ne_zero (Nat.ne_zero_of_lt hk)
    exact readTokens_cons_of_error h (endsToken_of_all hspace) (ih h.tail (Nat.lt_of_succ_lt_succ hk))

variable {rest : List Char}

theorem readTokens_of_invalid (h : SeparatedTokens tokens) (hrest : EndsToken rest)
    (hinvalid : ∃ x ∈ tokens, tokenValue n x.2 = none) :
    readTokens n tokens.length (textOfTokens tokens ++ rest) = .error .formatError := by
  induction tokens with
  | nil => simp at hinvalid
  | cons x xs ih =>
    obtain hx | hxs := (List.exists_mem_cons_iff _ _ _).1 hinvalid
    · exact readTokens_cons_of_invalid h hrest hx
    · exact readTokens_cons_of_error h hrest (ih h.tail hxs)

theorem readTokens_of_valid (h : SeparatedTokens tokens) (hrest : EndsToken rest)
    (hvalid : ∀ x ∈ tokens, tokenValue n x.2 = some (decimalValue x.2)) :
    readTokens n tokens.length (textOfTokens tokens ++ rest) =
      .ok (tokens.map fun x => BitVec.ofNat n (decimalValue x.2), rest) := by
  induction tokens with
  | nil => rfl
  | cons x xs ih =>
    obtain ⟨hx, hxs⟩ := List.forall_mem_cons.1 hvalid
    rw [List.length_cons, readTokens_cons_of_valid h hrest hx, ih h.tail hxs]
    rfl

end

/-! ## Reading four words -/

theorem tokenValue_eq_some {n : Nat} {token : List Char} (hne : token ≠ []) (hdigits : token.all isDigitChar = true)
    (hlt : decimalValue token < 2 ^ n) : tokenValue n token = some (decimalValue token) :=
  if_pos ⟨hne, hdigits, hlt⟩

theorem tokenValue_eq_none {n : Nat} {token : List Char}
    (h : token.all isDigitChar = false ∨ 2 ^ n ≤ decimalValue token) : tokenValue n token = none := by
  refine if_neg ?_
  rintro ⟨-, hdigits, hlt⟩
  obtain h | h := h
  · simp [h] at hdigits
  · omega

theorem parseWords_eq_error {n : Nat} {text : List Char} {e : Status} (h : readTokens n 4 text = .error e) :
    parseWords n text = .error e := by
  rw [← parseWords_map_wordList] at h
  cases hparse : parseWords n text with
  | error e' =>
    rw [hparse] at h
    cases h
    rfl
  | ok r =>
    rw [hparse] at h
    cases h

theorem exists_parseWords_eq_ok {n : Nat} {text rest : List Char} {vs : List (BitVec n)}
    (h : readTokens n 4 text = .ok (vs, rest)) : ∃ v, parseWords n text = .ok (v, rest) ∧ wordList v = vs := by
  rw [← parseWords_map_wordList] at h
  cases hparse : parseWords n text with
  | error e =>
    rw [hparse] at h
    cases h
  | ok r =>
    rw [hparse] at h
    cases h
    exact ⟨r.1, rfl, rfl⟩

/-- Four valid tokens are read as their values. -/
theorem parseWords_of_valid {n : Nat} {tokens : List (List Char × List Char)} {rest : List Char}
    (h : SeparatedTokens tokens) (hrest : EndsToken rest) (hfour : tokens.length = 4)
    (hvalid : ∀ x ∈ tokens, x.2.all isDigitChar = true ∧ decimalValue x.2 < 2 ^ n) :
    ∃ v : Words n, parseWords n (textOfTokens tokens ++ rest) = .ok (v, rest) ∧
      (wordList v).map BitVec.toNat = tokens.map fun x => decimalValue x.2 := by
  have hvalue : ∀ x ∈ tokens, tokenValue n x.2 = some (decimalValue x.2) := fun x hx =>
    have ⟨hdigits, hlt⟩ := hvalid x hx
    tokenValue_eq_some (h.ne_nil hx) hdigits hlt
  have hread := readTokens_of_valid h hrest hvalue
  rw [hfour] at hread
  obtain ⟨v, hparse, hwords⟩ := exists_parseWords_eq_ok hread
  refine ⟨v, hparse, ?_⟩
  rw [hwords, List.map_map]
  refine List.map_congr_left fun x hx => ?_
  simpa using Nat.mod_eq_of_lt (hvalid x hx).2

/-- Settles O39: the four turns of the reader fail at the first invalid token or at the end of the text. -/
theorem parseReadsFourTokens : Obligations.ParseReadsFourTokens := by
  intro n tokens h
  refine ⟨fun space hspace hfew => parseWords_eq_error (readTokens_of_too_few h hspace hfew),
    fun rest hrest hfour => ⟨fun ⟨x, hx, hbad⟩ => parseWords_eq_error ?_, parseWords_of_valid h hrest hfour⟩⟩
  rw [← hfour]
  exact readTokens_of_invalid h hrest ⟨x, hx, tokenValue_eq_none hbad⟩

/-! ## The text reads back (R145) -/

/-- The numerals of a text, each with the space before it. -/
def wordTokens {n : Nat} (v : Words n) : List (List Char × List Char) :=
  [([], decimalText v.s0.toNat), ([' '], decimalText v.s1.toNat), ([' '], decimalText v.s2.toNat),
    ([' '], decimalText v.s3.toNat)]

theorem textOfTokens_wordTokens {n : Nat} (v : Words n) : textOfTokens (wordTokens v) = textOfWords v := by
  simp [textOfTokens, wordTokens, textOfWords]

theorem forall_mem_wordTokens {n : Nat} {v : Words n} {p : List Char × List Char → Prop}
    (hp : ∀ space ∈ [[], [' ']], ∀ x : BitVec n, p (space, decimalText x.toNat)) : ∀ x ∈ wordTokens v, p x := by
  simp only [wordTokens, List.forall_mem_cons]
  exact ⟨hp _ (by simp) _, hp _ (by simp) _, hp _ (by simp) _, hp _ (by simp) _, by simp⟩

theorem any_isSpaceChar_decimalText (v : Nat) : (decimalText v).any isSpaceChar = false := by
  simpa using fun c hc => isSpaceChar_of_isDigitChar (isDigitChar_of_mem_decimalText (v := v) (c := c) hc)

theorem separatedTokens_wordTokens {n : Nat} (v : Words n) : SeparatedTokens (wordTokens v) := by
  refine ⟨forall_mem_wordTokens fun space hspace x => ⟨?_, decimalText_ne_nil _, any_isSpaceChar_decimalText _⟩,
    by simp [wordTokens]⟩
  obtain rfl | rfl : space = [] ∨ space = [' '] := by simpa using hspace
  · rfl
  · rfl

theorem wordList_map_toNat_inj {n : Nat} {v w : Words n} :
    (wordList v).map BitVec.toNat = (wordList w).map BitVec.toNat ↔ v = w := by
  obtain ⟨v0, v1, v2, v3⟩ := v
  obtain ⟨w0, w1, w2, w3⟩ := w
  simp [wordList, BitVec.toNat_inj]

/-- Twenty digits suffice for every word, so each numeral is a valid token of the word's value. -/
theorem parseWords_textOfWords {n : Nat} (hn : 2 ^ n ≤ 10 ^ 20) (v : Words n) {rest : List Char}
    (hrest : EndsToken rest) : parseWords n (textOfWords v ++ rest) = .ok (v, rest) := by
  have hvalue : ∀ x : BitVec n, decimalValue (decimalText x.toNat) = x.toNat := fun x =>
    decimalValue_decimalDigits (x.isLt.trans_le hn)
  have hvalid : ∀ y ∈ wordTokens v, y.2.all isDigitChar = true ∧ decimalValue y.2 < 2 ^ n :=
    forall_mem_wordTokens fun _ _ x =>
      ⟨List.all_eq_true.2 fun c => isDigitChar_of_mem_decimalText, (hvalue x).trans_lt x.isLt⟩
  obtain ⟨w, hparse, hw⟩ := parseWords_of_valid (separatedTokens_wordTokens v) hrest rfl hvalid
  rw [textOfTokens_wordTokens] at hparse
  obtain rfl : w = v := by
    rw [← wordList_map_toNat_inj, hw]
    simp [wordTokens, wordList, hvalue]
  exact hparse

theorem parseWords_textOfWords_nil {n : Nat} (hn : 2 ^ n ≤ 10 ^ 20) (v : Words n) :
    parseWords n (textOfWords v) = .ok (v, []) := by
  simpa using parseWords_textOfWords hn v (rest := []) (by simp [EndsToken])

/-- Settles O38: both widths have words of at most twenty digits. -/
theorem parseOfTextIsIdentity : Obligations.ParseOfTextIsIdentity := fun _ hrest =>
  ⟨fun v => parseWords_textOfWords (by decide) v hrest, fun v => parseWords_textOfWords (by decide) v hrest⟩

/-! ## SERIALIZE and DESERIALIZE (R69) -/

theorem toNat_zext64_word32 (v : BitVec 32) : (zext64 v).toNat = v.toNat :=
  BitVec.toNat_setWidth_of_le (by decide)

/-- Zero extension does not change the numerals. -/
theorem textOfWords_beats (e : Engine) : textOfWords e.beats = e.text := by
  cases e with
  | engine64 s => rfl
  | engine32 s => simp only [textOfWords, Engine.beats, Engine.text, toNat_zext64_word32]

theorem textOfData_words (header : Beat) (e : Engine) : textOfData (header :: e.words) = e.text := by
  rw [← textOfWords_beats, Engine.words_eq_beats]
  rfl

theorem parsePayload_of_parseWords {w : Width} {text rest : List Char} {v : Words w.bits}
    (h : parseWords w.bits text = .ok (v, rest)) : parsePayload w text = .ok (muxBeats v) := by
  rw [parsePayload, h]

/-- The text of an engine parses to the payload that loads it. -/
theorem parsePayload_text (e : Engine) : parsePayload e.width e.text = .ok e.words := by
  cases e with
  | engine64 s => exact parsePayload_of_parseWords (w := .w64) (parseWords_textOfWords_nil (by decide) s)
  | engine32 s => exact parsePayload_of_parseWords (w := .w32) (parseWords_textOfWords_nil (by decide) s)

section
variable {sys : System} {k : Nat} {s : State}

theorem serialize_text (hk : sys[k]? = some s) : (serialize sys k).2 = s.engine.text := by
  rw [serialize, responseOf_encode hk (exec_ser_nil _)]
  exact textOfData_words _ _

theorem deserialize_of_parsePayload {text : List Char} {payload : List Beat} (hk : sys[k]? = some s)
    (h : parsePayload s.engine.width text = .ok payload) :
    deserialize sys k text = .ok (sendTo sys k (encode (.deser payload))) := by
  simp only [deserialize, hk, h]

theorem deserialize_of_parseWords_error {text : List Char} {e : Status} (hk : sys[k]? = some s)
    (h : parseWords s.engine.width.bits text = .error e) : deserialize sys k text = .error e := by
  simp only [deserialize, hk, parsePayload, h]

end

/-- Settles O52: the text parses to the words that SER answered, so SERIALIZE and DESERIALIZE send what COPY
sends. -/
theorem textCarriesEngineAcross : Obligations.TextCarriesEngineAcross := by
  intro sys a b sa sb hab ha hb hw
  refine ⟨⟨copyEngine sys a b, ?_, copyEngine_engines hab ha hb hw⟩,
    fun text => deserialize_of_parseWords_error hb⟩
  have hb' : (serialize sys a).1[b]? = some sb := (sendTo_of_ne sys _ hab.symm).trans hb
  have hdata : responseData (responseOf sys a (encode (.ser []))) = sa.engine.words := by
    rw [responseOf_encode ha (exec_ser_nil _)]
    rfl
  rw [serialize_text ha, deserialize_of_parsePayload hb' (hw ▸ parsePayload_text sa.engine), copyEngine, forward,
    hdata]
  rfl

end Sys2Proof.Machine
end

section
/-! PROOFS of the statements about 46_adapter.md: CMPEQ (R160), RANGE with the bounds of NEXT's output (R161), NOP
(R162). -/

namespace Sys2Proof.Machine

/-! ## CMPEQ -/

/-- A beat of `2^32` or more equals no zero-extended word (R160). -/
theorem eq_zext64_word32_iff {b : Beat} {v : BitVec 32} : b = zext64 v ↔ b.toNat = v.toNat := by
  rw [BitVec.toNat_eq, toNat_zext64_word32]

/-- CMPEQ of any four beats tells whether they are the words that SER answers. -/
theorem exec_cmpeq_quad (v : Words 64) (s : State) :
    exec (.cmpeq [v.s0, v.s1, v.s2, v.s3]) s =
      .next (s.answered s.engine [0x0A00, if v = s.engine.beats then 1 else 0]) := by
  have htruth : truthBeat (s.engine.equalsWords v) = if v = s.engine.beats then 1 else 0 :=
    if_congr Engine.equalsWords_iff rfl rfl
  rw [← htruth]
  rfl

/-- Settles O34: equality with the words of the engine is equality beat by beat; another count fails the length
check. -/
theorem cmpeqAnswersEquality : Obligations.CmpeqAnswersEquality := by
  refine ⟨fun s ⟨w0, w1, w2, w3⟩ v0 v1 v2 v3 hs => ?_, fun s w v0 v1 v2 v3 hs => ?_, fun s payload h => ?_⟩
  · rw [exec_cmpeq_quad ⟨v0, v1, v2, v3⟩, hs]
    simp only [Engine.beats, Words.mk.injEq]
  · rw [exec_cmpeq_quad ⟨v0, v1, v2, v3⟩, hs]
    simp only [Engine.beats, Words.mk.injEq, eq_zext64_word32_iff]
  · exact exec_ofCommand_of_length_ne_need (c := .cmpeq) h

/-! ## RANGE -/

theorem exec_range_nil (s : State) :
    exec (.range []) s = .next (s.answered s.engine [0x0B00, minOutput, s.engine.maxOutput]) := rfl

/-- Settles O35: the two bounds of the width; any payload fails the length check. -/
theorem rangeAnswersBounds : Obligations.RangeAnswersBounds := by
  refine ⟨fun s w hs => ?_, fun s w hs => ?_, fun s payload h => ?_⟩
  · rw [exec_range_nil, hs]
    rfl
  · rw [exec_range_nil, hs]
    rfl
  · exact exec_ofCommand_of_length_ne_need (c := .range) h

/-! ## The bounds of NEXT's output -/

theorem Engine.toNat_maxOutput (e : Engine) : e.maxOutput.toNat = 2 ^ e.width.bits - 1 := by
  cases e <;> rfl

/-- The output is a word of the engine's width, so it is at most the largest one. -/
theorem Engine.output_le_maxOutput (e : Engine) : e.output ≤ e.maxOutput := by
  rw [BitVec.le_def, Engine.toNat_maxOutput]
  exact Nat.le_sub_one_of_lt e.output_lt

theorem rotateLeft_allOnes (n k : Nat) : (BitVec.allOnes n).rotateLeft k = BitVec.allOnes n := by
  ext i hi
  simp [BitVec.getElem_rotateLeft]

/-- The sum of the outer words is rotated without effect, so the output of these registers is the largest word. -/
theorem outWord_allOnes {n : Nat} {p : Params n} (hR : p.rotR < n) :
    outWord p ⟨0, 0, 0, BitVec.allOnes n⟩ = BitVec.allOnes n := by
  simp [outWord_eq_rotateLeft hR, rotateLeft_allOnes]

/-- Settles O20: the zero state attains the lower bound, `outWord_allOnes` the upper one. -/
theorem outputsLieInTheRange : Obligations.OutputsLieInTheRange := by
  refine ⟨fun e => ⟨Nat.zero_le _, e.output_le_maxOutput⟩, fun w => ?_, fun w => ?_⟩
  · cases w with
    | w32 => exact ⟨.engine32 (zeroWords 32), rfl, Engine.output_of_isZero rfl⟩
    | w64 => exact ⟨.engine64 (zeroWords 64), rfl, Engine.output_of_isZero rfl⟩
  · cases w with
    | w32 => exact ⟨.engine32 ⟨0, 0, 0, BitVec.allOnes 32⟩, rfl, congrArg zext64 (outWord_allOnes (by decide))⟩
    | w64 => exact ⟨.engine64 ⟨0, 0, 0, BitVec.allOnes 64⟩, rfl, congrArg zext64 (outWord_allOnes (by decide))⟩

/-! ## NOP -/

theorem exec_nop_nil (s : State) : exec (.nop []) s = .next (s.answered s.engine [0x0000]) := rfl

/-- Settles O36: without a payload only the response is new; any payload fails the length check. -/
theorem nopOnlyAnswers : Obligations.NopOnlyAnswers :=
  ⟨exec_nop_nil, fun _ _ h => exec_ofCommand_of_length_ne_need (c := .nop) h⟩

end Sys2Proof.Machine
end

section
/-! PROOFS of the statements about 60_exceptions.md: no state and no input stops the machine (R180), illegal headers
(R173), wrong payload lengths (R174). -/

namespace Sys2Proof.Machine

/-! ## Every step answers -/

/-- Settles O7: idle and the two kinds of reset answer by themselves, and every packet is answered. -/
theorem everyStepAnswers : Obligations.EveryStepAnswers := by
  intro s
  obtain ⟨-, hstep⟩ | ⟨rest, -, hstep⟩ | ⟨p, rest, -, -, hstep⟩ | ⟨p, rest, sent, rest', t, -, -, -, hstep⟩ :=
    step_cases s
  · exact ⟨s, hstep⟩
  · exact ⟨_, hstep⟩
  · obtain ⟨e, header, data, hrun⟩ := runPacket_answers p (s.withPort rest)
    exact ⟨_, hstep.trans hrun⟩
  · exact ⟨_, hstep⟩

/-! ## Illegal headers -/

theorem toNat_headerOpcode (h : Beat) : (headerOpcode h).toNat = h.toNat % 256 := by
  simp [headerOpcode]

theorem toNat_opcode_le (c : Command) : c.opcode.toNat ≤ 0x0B := by
  cases c <;> decide

/-- A packet that decodes is an encoding, so its header is one of the twelve opcodes. -/
theorem toNat_header_le_of_decode {p : CommandPacket} {i : Instr} (h : decode p = .ok i) :
    p.header.toNat ≤ 0x0B := by
  obtain rfl := (decodeEncodeAgree p i).1 h
  rw [encode, BitVec.toNat_setWidth_of_le (by decide)]
  exact toNat_opcode_le i.command

/-- Settles O11: such a header does not decode, and the error's echo is the low byte of the header. -/
theorem unassignedHeaderIsIllegalCommand : Obligations.UnassignedHeaderIsIllegalCommand := by
  intro s p rest hport hrest hbig
  rw [step_packet hport hrest]
  obtain ⟨i, hdec, -⟩ | ⟨-, hrun⟩ := runPacket_cases p (s.withPort rest)
  · exact absurd (toNat_header_le_of_decode hdec) (Nat.not_le.2 hbig)
  · rw [hrun, responseHeader_eq, toNat_headerOpcode]
    rfl

/-! ## Wrong payload lengths -/

/-- Settles O12: the failed length check of each command, grouped by the length that its format needs. -/
theorem wrongPayloadLengthIsLengthError : Obligations.WrongPayloadLengthIsLengthError := by
  intro s payload
  refine ⟨fun h => ⟨?_, ?_, ?_, ?_, ?_, ?_, ?_⟩, fun h => ⟨?_, ?_⟩, fun h => ⟨?_, ?_⟩, fun h => ?_⟩
  · exact exec_ofCommand_of_length_ne_need (c := .nop) h
  · exact exec_ofCommand_of_length_ne_need (c := .seedd) h
  · exact exec_ofCommand_of_length_ne_need (c := .next) h
  · exact exec_ofCommand_of_length_ne_need (c := .jump) h
  · exact exec_ofCommand_of_length_ne_need (c := .ljump) h
  · exact exec_ofCommand_of_length_ne_need (c := .ser) h
  · exact exec_ofCommand_of_length_ne_need (c := .range) h
  · exact exec_ofCommand_of_length_ne_need (c := .seed) h
  · exact exec_ofCommand_of_length_ne_need (c := .discard) h
  · exact exec_ofCommand_of_length_ne_need (c := .cmpeq) h
  · exact exec_deser_formatError (.inl h)
  · exact exec_seedq_domainError (.inl h)

end Sys2Proof.Machine
end

section
/-! PROOFS of the statements about 70_reset_and_hazards.md: a reset inside an unfinished packet, and a reset during a
command or its response (R190). -/

namespace Sys2Proof.Machine

/-! ## Reset inside an unfinished packet -/

/-- Settles O2: the fetch skips the beats before the reset, and the reset constructs the registers anew. -/
theorem resetAbandonsUnfinishedPacket : Obligations.ResetAbandonsUnfinishedPacket :=
  fun _ _ _ hport => step_unfinished_reset hport

/-! ## Reset during a command -/

/-- What a packet would have answered is cut short by a reset that lands while it runs. -/
theorem step_packet_resetDuring {s t : State} {p : CommandPacket} {rest : List PortEvent} (sent : Nat)
    (hrun : runPacket p (s.withPort rest) = .next t) :
    step (s.withPort (packetEvents p ++ PortEvent.resetDuring sent :: rest)) =
      .next ((s.withPort rest).cutShort t sent rest) := by
  simp [step, fetch_packetEvents, interruption, hrun]

/-- Of a cut answer nothing is left but the reset registers, the rest of the port and the beats that had left. -/
theorem State.cutShort_answered (s : State) (e : Engine) (header : Beat) (data : List Beat) (sent : Nat)
    (rest : List PortEvent) :
    s.cutShort (s.answered e (header :: data)) sent rest =
      { engine := (State.resetOf s.engine.width).engine
        port := rest
        responses := s.responses ++ if sent = 0 then [] else [(header :: data).take sent] } := by
  rw [← State.cutShort_answered_responses s e header data sent rest]
  rfl

/-- Settles O3: a packet answers from the registers alone, so the response that is cut is the one that it gets with
nothing else at the port. -/
theorem resetCutsCommandAndResponse : Obligations.ResetCutsCommandAndResponse := by
  intro s p sent rest
  obtain ⟨e, header, data, halone, hcut⟩ :=
    runPacket_reads_registers_only p (s.withPort []) (s.withPort rest) rfl
  refine ⟨e, header :: data, ?_, ?_⟩
  · exact (step_packet (rest := []) (List.append_nil _).symm rfl).trans halone
  · rw [step_packet_resetDuring sent hcut, State.cutShort_answered]
    rfl

end Sys2Proof.Machine
end
